-- ==== Sys2Proof/Word.lean ====
section
/-! DEFINITION. The value types that cross the block's ports (10_state.md R10) and the command word (30_encoding.md R36). -/

namespace Sys2Proof

/-- An 8-bit value: a data byte, a parity word, an operand field of a command (R10, R36). -/
abbrev Byte := BitVec 8

/-- A codeword in its 8-bit container; bits 6..0 carry the code (R5, R28). -/
abbrev Codeword := BitVec 8

/-- A 4-bit data unit, range [0,15] (R5, R10). -/
abbrev Nibble := BitVec 4

/-- The syndrome decoder's output: 0..6 names a codeword bit, 7 says "no error detected" (R34). -/
abbrev Position := BitVec 3

/-- The model's 24-bit command word (R36). -/
abbrev CommandWord := BitVec 24

end Sys2Proof
end

