-- ==== Sys2Proof/Syntax.lean ====
section
/-! DEFINITION. The six units (00_scope.md R2) and the six commands (30_encoding.md R37, opcode_table.json). -/

namespace Sys2Proof

/-- The six units of the block, leaves first (R2). Each has exactly one command (R37, R42). -/
inductive HammingUnit where
  | parityUnit
  | syndromeDecoder
  | nibbleEncoder
  | nibbleDecoder
  | byteEncoder
  | byteDecoder
  deriving DecidableEq, Repr

/-- One command with its operand fields as they stand in the word (R38): none is extended, scaled or shifted.
`encn` carries all eight bits of field `A`, because a word with `A[7:4] ≠ 0` is a decodable command (R39) whose
operand is checked after decoding (R38, R73). -/
inductive Instr where
  /-- `PAR`: compute parity of `cw_in = A` (R43). -/
  | par (cwIn : Byte)
  /-- `SYN`: locate the error in `cw_in = A` (R48). -/
  | syn (cwIn : Byte)
  /-- `ENCN`: encode the nibble value `A` (R54). -/
  | encn (value : Byte)
  /-- `DECN`: decode the codeword `cw_in = A` (R58). -/
  | decn (cwIn : Byte)
  /-- `ENCB`: encode `byte_in = A` (R64). -/
  | encb (byteIn : Byte)
  /-- `DECB`: decode the pair `cw_hi = A`, `cw_lo = B` (R66). -/
  | decb (cwHi cwLo : Byte)
  deriving DecidableEq, Repr

end Sys2Proof
end

