-- ==== Sys2Proof/Decode.lean ====
section
/-! DEFINITION. The command word's fields, the decoder (total on all 2^24 words, rejecting by name), the encoder, and the opcode
table's match and mask rows (30_encoding.md R36 to R40). -/

namespace Sys2Proof

/-- Field `op`, `W[23:21]` (R36). -/
def opField (w : CommandWord) : BitVec 3 := w.extractLsb' 21 3

/-- Field `rsv`, `W[20:16]` (R36). -/
def rsvField (w : CommandWord) : BitVec 5 := w.extractLsb' 16 5

/-- Field `B`, `W[15:8]` (R36). -/
def bField (w : CommandWord) : Byte := w.extractLsb' 8 8

/-- Field `A`, `W[7:0]` (R36). -/
def aField (w : CommandWord) : Byte := w.extractLsb' 0 8

/-- Why a command word is illegal: the three clauses of R39. -/
inductive IllegalReason where
  /-- R39 (a): `op` is `110` or `111`. -/
  | reservedOp
  /-- R39 (b): `rsv ≠ 0`. -/
  | reservedBits
  /-- R39 (c): `op` is not `101` and `B ≠ 0`. -/
  | strayOperand
  deriving DecidableEq, Repr

/-- The operation map, read from `op` (R37). -/
def unitOfOp (op : BitVec 3) : Option HammingUnit :=
  match op.toNat with
  | 0 => some .parityUnit
  | 1 => some .syndromeDecoder
  | 2 => some .nibbleEncoder
  | 3 => some .nibbleDecoder
  | 4 => some .byteEncoder
  | 5 => some .byteDecoder
  | _ => none

/-- The operation map, read from the unit (R37). -/
def opOfUnit : HammingUnit → BitVec 3
  | .parityUnit => 0b000
  | .syndromeDecoder => 0b001
  | .nibbleEncoder => 0b010
  | .nibbleDecoder => 0b011
  | .byteEncoder => 0b100
  | .byteDecoder => 0b101

/-- The command of a unit with operand fields `A` and `B` (R38); only `DECB` has a second operand. -/
def instrOf (u : HammingUnit) (a b : Byte) : Instr :=
  match u with
  | .parityUnit => .par a
  | .syndromeDecoder => .syn a
  | .nibbleEncoder => .encn a
  | .nibbleDecoder => .decn a
  | .byteEncoder => .encb a
  | .byteDecoder => .decb a b

/-- The decoder: R39's checks, then the operation map. -/
def decode (w : CommandWord) : Except IllegalReason Instr :=
  match unitOfOp (opField w) with
  | none => .error .reservedOp
  | some u =>
    if rsvField w ≠ 0 then .error .reservedBits
    else if u ≠ .byteDecoder ∧ bField w ≠ 0 then .error .strayOperand
    else .ok (instrOf u (aField w) (bField w))

/-- The unit a command selects (R37). -/
def Instr.unit : Instr → HammingUnit
  | .par _ => .parityUnit
  | .syn _ => .syndromeDecoder
  | .encn _ => .nibbleEncoder
  | .decn _ => .nibbleDecoder
  | .encb _ => .byteEncoder
  | .decb _ _ => .byteDecoder

/-- Field `A` of a command (R38). -/
def Instr.operandA : Instr → Byte
  | .par a => a
  | .syn a => a
  | .encn a => a
  | .decn a => a
  | .encb a => a
  | .decb hi _ => hi

/-- Field `B` of a command: the second operand of `DECB`, 0 for every other (R36, R38). -/
def Instr.operandB : Instr → Byte
  | .par _ => 0
  | .syn _ => 0
  | .encn _ => 0
  | .decn _ => 0
  | .encb _ => 0
  | .decb _ lo => lo

/-- The command word of a command, `{op, rsv = 0, B, A}` (R36, R41). -/
def encode (i : Instr) : CommandWord :=
  opOfUnit i.unit ++ 0#5 ++ i.operandB ++ i.operandA

/-- One row of opcode_table.json: the unit its mnemonic selects, `match` and `mask`. -/
structure OpcodeRow where
  unit : HammingUnit
  matchBits : CommandWord
  maskBits : CommandWord
  deriving DecidableEq, Repr

/-- opcode_table.json, row by row. The decoder does not use it; it is the table the decoder is held against. -/
def opcodeTable : List OpcodeRow :=
  [ ⟨.parityUnit, 0x000000, 0xFFFF00⟩,
    ⟨.syndromeDecoder, 0x200000, 0xFFFF00⟩,
    ⟨.nibbleEncoder, 0x400000, 0xFFFF00⟩,
    ⟨.nibbleDecoder, 0x600000, 0xFFFF00⟩,
    ⟨.byteEncoder, 0x800000, 0xFFFF00⟩,
    ⟨.byteDecoder, 0xA00000, 0xFF0000⟩ ]

/-- A word matches a row when its masked bits are the row's. -/
def OpcodeRow.matches (r : OpcodeRow) (w : CommandWord) : Bool :=
  w &&& r.maskBits == r.matchBits

/-- The command word whose low `nbits` bits are `w`'s and whose other bits are 0 (assumption 10). -/
def tableWord (nbits w : Nat) : CommandWord :=
  BitVec.ofNat 24 (w % 2 ^ nbits)

/-- The command the decoder reads from a table row's word. A command word is one abstract 24-bit value (R36), so bit k
of `w` is bit k of the command word; nothing longer than 24 bits is a command (R40). -/
def decodeTableWord (nbits w : Nat) : Option Instr :=
  if nbits ≤ 24 then
    match decode (tableWord nbits w) with
    | .ok i => some i
    | .error _ => none
  else none

end Sys2Proof
end

