-- ==== Sys2Proof/Machine/Codeword.lean ====
section
/-! DEFINITION. The codeword format: data-bit placement, validity, relocation, and the host's channel (30_encoding.md R28 to
R35). -/

namespace Sys2Proof.Machine

/-- `zext_8` of one bit (00_scope.md R6). -/
def zext8 (b : Bool) : Byte := (BitVec.ofBool b).zeroExtend 8

/-- The 8-bit mask of one codeword bit, `1 << p` (R6). -/
def bitMask (p : Nat) : Byte := 1#8 <<< p

/-- The data bits' mask: bits 4, 2, 1 and 0 (R28). -/
def dataMask : Byte := 0x17

/-- The parity bits' mask: bits 6, 5 and 3 (R28, R33). -/
def parityMask : Byte := 0x68

/-- `data_bits(n) = zext_8({n[3], 0, n[2], n[1], n[0]})` (R29). -/
def dataBits (n : Nibble) : Codeword :=
  (n.extractLsb' 3 1 ++ 0#1 ++ n.extractLsb' 0 3 : BitVec 5).zeroExtend 8

/-- `nibble_of(c) = {c[4], c[2], c[1], c[0]}` (R29). -/
def nibbleOf (c : Codeword) : Nibble :=
  c.extractLsb' 4 1 ++ c.extractLsb' 0 3

/-- The validity invariant of a codeword; bit 7 does not take part (R30). -/
def valid (c : Codeword) : Bool :=
  c.getLsbD 6 == (c.getLsbD 4 ^^ c.getLsbD 2 ^^ c.getLsbD 0)
    && c.getLsbD 5 == (c.getLsbD 4 ^^ c.getLsbD 1 ^^ c.getLsbD 0)
    && c.getLsbD 3 == (c.getLsbD 2 ^^ c.getLsbD 1 ^^ c.getLsbD 0)

/-- Encode step 2: "clear bit 3, set bit 4 instead" where bit 3 is set (R54). -/
def relocate (c : Codeword) : Codeword :=
  if c.getLsbD 3 then (c &&& ~~~0x08#8) ||| 0x10#8 else c

/-- Decode step 5: "clear bit 4, set bit 3 instead" where bit 4 is set (R58). -/
def unrelocate (c : Codeword) : Codeword :=
  if c.getLsbD 4 then (c &&& ~~~0x10#8) ||| 0x08#8 else c

/-- The number of set bits of an 8-bit value (R6). -/
def popcount (v : Byte) : Nat :=
  (v.getLsbD 0).toNat + (v.getLsbD 1).toNat + (v.getLsbD 2).toNat + (v.getLsbD 3).toNat
    + (v.getLsbD 4).toNat + (v.getLsbD 5).toNat + (v.getLsbD 6).toNat + (v.getLsbD 7).toNat

/-- The number of flipped code bits of an error pattern, `popcount(e[6:0])` (R32, R60). -/
def flippedBits (e : Byte) : Nat := popcount (e &&& 0x7F)

/-- The classes of a received word (R32). They describe the channel; the block never computes or reports them. -/
inductive WordClass where
  | noError
  | corrupted
  | ambiguous
  deriving DecidableEq, Repr

/-- The class of a received word `r` when the valid codeword `c` was sent, by the number of flipped bits among 6..0 (R32). -/
def classify (c r : Codeword) : WordClass :=
  match flippedBits (r ^^^ c) with
  | 0 => .noError
  | 1 => .corrupted
  | _ => .ambiguous

end Sys2Proof.Machine
end

