-- ==== Sys2Proof/Machine/ParityUnit.lean ====
section
/-! DEFINITION. The parity unit's function (40_parity_unit.md R43). -/

namespace Sys2Proof.Machine

/-- `compute_parity` (R43), line by line. -/
def computeParity (cwIn : Byte) : Byte :=
  let d1 := cwIn.getLsbD 4
  let d2 := cwIn.getLsbD 2
  let d3 := cwIn.getLsbD 1
  let d4 := cwIn.getLsbD 0
  let p1 := d1 ^^ d2 ^^ d4
  let p2 := d1 ^^ d3 ^^ d4
  let p3 := d2 ^^ d3 ^^ d4
  (zext8 p1 <<< 6) ||| (zext8 p2 <<< 5) ||| (zext8 p3 <<< 3)

end Sys2Proof.Machine
end

