-- ==== Sys2Proof/Machine/SyndromeDecoder.lean ====
section
/-! DEFINITION. The syndrome decoder's function (41_syndrome_decoder.md R47, R48). -/

namespace Sys2Proof.Machine

/-- Steps 1 and 2 of `locate_error`: the received word against the parity recomputed from its own data bits (R47, R48). -/
def parityMismatch (cwIn : Byte) : Byte :=
  cwIn ^^^ computeParity cwIn

/-- Steps 3 and 4: the syndrome `S = 4*m_p3 + 2*m_p2 + m_p1`, in [0,7] (R48). -/
def syndrome (cwIn : Byte) : Nat :=
  let mismatch := parityMismatch cwIn
  let mP3 := (mismatch.getLsbD 3).toNat
  let mP2 := (mismatch.getLsbD 5).toNat
  let mP1 := (mismatch.getLsbD 6).toNat
  4 * mP3 + 2 * mP2 + mP1

/-- `locate_error` (R48): `err_pos <- 7 - S`, which never wraps. -/
def locateError (cwIn : Byte) : Position :=
  BitVec.ofNat 3 (7 - syndrome cwIn)

end Sys2Proof.Machine
end

