-- ==== Sys2Proof/Machine/NibbleCodec.lean ====
section
/-! DEFINITION. The nibble encoder's and the nibble decoder's functions (42_nibble_codec.md R53, R54, R58). -/

namespace Sys2Proof.Machine

/-- `encode_nibble` on the 4-bit port `nibble_in` (R54), steps 1 to 4. -/
def encodeNibble (nibbleIn : Nibble) : Codeword :=
  let c := relocate (nibbleIn.zeroExtend 8)
  let p := computeParity c
  c ||| p

/-- The precondition of `encode_nibble` on an operand wider than the port: the nibble where the value is in [0,15], nothing
otherwise. The value is neither masked nor pushed through R54's steps (R53, decision D3). -/
def nibbleOperand (value : Byte) : Option Nibble :=
  if value.toNat > 15 then none else some (value.extractLsb' 0 4)

/-- Decode step 2: flip the bit the error position names, none where it is 7 (R58). -/
def correct (cw : Codeword) (position : Position) : Codeword :=
  if position ≠ 7 then cw ^^^ bitMask position.toNat else cw

/-- `decode_nibble` (R58), steps 1 to 6. -/
def decodeNibble (cwIn : Codeword) : Nibble :=
  let position := locateError cwIn
  let cw := correct cwIn position
  let p := computeParity cw
  let cw := cw &&& ~~~p
  let cw := unrelocate cw
  cw.extractLsb' 0 4

end Sys2Proof.Machine
end

