-- ==== Sys2Proof/Machine/ByteCodec.lean ====
section
/-! DEFINITION. The byte encoder's and the byte decoder's functions, two independent lanes each (43_byte_codec.md R63, R64, R66). -/

namespace Sys2Proof.Machine

/-- The high nibble of a byte, `byte >> 4`, presented as `byte_in[7:4]` (R64). -/
def highNibble (b : Byte) : Nibble := b.extractLsb' 4 4

/-- The low nibble of a byte, `byte & 0xF`, presented as `byte_in[3:0]` (R64). -/
def lowNibble (b : Byte) : Nibble := b.extractLsb' 0 4

/-- `encode_byte` (R64): element 0 encodes the high nibble, element 1 the low nibble (R35). -/
def encodeByte (byteIn : Byte) : Codeword × Codeword :=
  (encodeNibble (highNibble byteIn), encodeNibble (lowNibble byteIn))

/-- `decode_byte` (R66). -/
def decodeByte (cwHi cwLo : Codeword) : Byte :=
  ((decodeNibble cwHi).zeroExtend 8 <<< 4) ||| (decodeNibble cwLo).zeroExtend 8

end Sys2Proof.Machine
end

