-- ==== Sys2Proof/Machine/State.lean ====
section
/-! DEFINITION. The model's state. The block itself has no state element (10_state.md R8, R11 to R17; 20_memory.md R20); what the
spec gives a MODEL is an empty result list and an empty fault record (70_reset_and_hazards.md R82), and the host's list of
commands (10_state.md R12). -/

namespace Sys2Proof.Machine

/-- The result record of one command: exactly the selected unit's output ports, at their widths (30_encoding.md R38). -/
inductive Result where
  /-- `parity_out` of the parity unit. -/
  | parity (parityOut : Byte)
  /-- `err_pos` of the syndrome decoder. -/
  | errorPosition (errPos : Position)
  /-- `cw_out` of the nibble encoder. -/
  | codeword (cwOut : Codeword)
  /-- `nibble_out` of the nibble decoder. -/
  | nibble (nibbleOut : Nibble)
  /-- `cw_hi` (element 0) and `cw_lo` (element 1) of the byte encoder. -/
  | codewordPair (cwHi cwLo : Codeword)
  /-- `byte_out` of the byte decoder. -/
  | byte (byteOut : Byte)
  deriving DecidableEq, Repr

/-- One entry of the fault record (60_exceptions.md R70, R71, R74). -/
inductive FaultEntry where
  /-- `PreconditionViolation(value)` with the command word it came from (R70). -/
  | preconditionViolation (value : Byte) (word : CommandWord)
  /-- `IllegalCommand(word)` (R71). -/
  | illegalCommand (word : CommandWord)
  deriving DecidableEq, Repr

/-- The model's state: plain data. -/
structure State where
  /-- The host's commands not yet issued, next first. Host state, not the block's (R12, R27, R88; assumption 1). -/
  pending : List CommandWord
  /-- The result list, one record per completed command, oldest first (R82, R85, R88). -/
  results : List Result
  /-- The fault record; no step clears it (R74, R82). -/
  faultRecord : List FaultEntry
  deriving DecidableEq, Repr

/-- The model right after power-up: an empty result list and an empty fault record, nothing else (R82). No command is
pending, because the host has presented none yet (assumption 1). -/
def State.reset : State :=
  { pending := [], results := [], faultRecord := [] }

/-- Why a step stops with a fault. Each carries the state the stop leaves. -/
inductive Fault where
  /-- Raised by `ENCN` when its operand exceeds 15 (R53, R70). `after` is the state it leaves: no result, the outcome in
  the fault record (R74). SAFE: the source calls the case undefined, and the spec's decision D3 errs toward unprovable. -/
  | preconditionViolation (value : Byte) (word : CommandWord) (after : State)
  /-- Raised by a step from a state whose fault record is not empty: the run stopped at an earlier command and issues
  nothing more (R74, R88). `after` is that state, unchanged. SAFE (assumption 3). -/
  | runStopped (after : State)
  deriving DecidableEq, Repr

/-- Why a step is refused. -/
inductive Refusal where
  /-- Raised by a step whose command word R39 rejects (R71). `after` is the state it leaves: no result, the outcome in the
  fault record (R74). SAFE: the spec gives the word no meaning (D5). -/
  | illegalCommand (word : CommandWord) (after : State)
  /-- Raised by an arm of `exec` whose instruction has no meaning yet; no arm raises it now. SAFE. -/
  | notModelled (mnemonic : String)
  deriving DecidableEq, Repr

end Sys2Proof.Machine
end

