-- ==== Sys2Proof/Machine/Ops.lean ====
section
/-! DEFINITION. The named operations on the state: appending a result, taking a fault or a refusal (the ONE shared stop
operation, 60_exceptions.md R74), and taking the host's next command. The block has no register, no memory, no trap entry and
no trap return (R11, R20, R74, R75), so there are no others. -/

namespace Sys2Proof.Machine

/-- A completed command appends its result to the result list (70_reset_and_hazards.md R85). -/
def State.appendResult (s : State) (r : Result) : State :=
  { s with results := s.results ++ [r] }

/-- The outcome of a faulting or refused command goes into the fault record; no result is written (R74, R85). -/
def State.recordFault (s : State) (e : FaultEntry) : State :=
  { s with faultRecord := s.faultRecord ++ [e] }

/-- The cause code of a recorded outcome (60_exceptions.md §4). -/
def FaultEntry.code : FaultEntry → Nat
  | .preconditionViolation _ _ => 1
  | .illegalCommand _ => 2

/-- A command completes: the unit's outputs are its result (R69, R85). -/
def complete (r : Result) (s : State) : Host.Outcome State Fault Refusal :=
  .next (s.appendResult r)

/-- Taking a fault or a refusal (R74): the outcome is recorded and the run stops at this command. -/
def stopWith (e : FaultEntry) (s : State) : Host.Outcome State Fault Refusal :=
  match e with
  | .preconditionViolation value word => .fault (.preconditionViolation value word (s.recordFault e))
  | .illegalCommand word => .refused (.illegalCommand word (s.recordFault e))

/-- A step from a stopped run: nothing is issued any more (R74, R88). -/
def stayStopped (s : State) : Host.Outcome State Fault Refusal :=
  .fault (.runStopped s)

/-- A step when the host has no command for the block: nothing changes (R88; assumption 4). -/
def idle (s : State) : Host.Outcome State Fault Refusal :=
  .next s

/-- The host issues its next command (R12, R88): the word and the state without it. -/
def State.issue (s : State) : Option (CommandWord × State) :=
  match s.pending with
  | [] => none
  | w :: rest => some (w, { s with pending := rest })

/-- The host presents `w` as the next command, in the place of the one it had there (20_memory.md R27), to a block that is not
stopped (assumption 10). -/
def State.present (s : State) (w : CommandWord) : State :=
  { s with pending := w :: s.pending.tail, faultRecord := [] }

/-- The host starts a program: its command list, an empty result list and an empty fault record (R82, R88). -/
def State.load (program : List CommandWord) : State :=
  { State.reset with pending := program }

/-- The position of the next command in the host's list: every earlier command has left exactly one result (R88). In the
state a stop leaves it is the index of the command that stopped (assumption 9). -/
def State.commandIndex (s : State) : Nat :=
  s.results.length

end Sys2Proof.Machine
end

