-- ==== Sys2Proof/Machine/Operands.lean ====
section
/-! DEFINITION. The units' input ports, how a command drives them, and the outputs each unit shows for its present inputs
(10_state.md R9, R17; 30_encoding.md R38). -/

namespace Sys2Proof.Machine

/-- The input ports of one unit with the values on them (R9). Every bit is 0 or 1 (10_state.md R18). -/
inductive UnitInputs where
  | parityUnit (cwIn : BitVec 8)
  | syndromeDecoder (cwIn : BitVec 8)
  | nibbleEncoder (nibbleIn : BitVec 4)
  | nibbleDecoder (cwIn : BitVec 8)
  | byteEncoder (byteIn : BitVec 8)
  | byteDecoder (cwHi cwLo : BitVec 8)
  deriving DecidableEq, Repr

/-- The block as hardware: the output ports of a unit are at every moment this function of its present inputs (R8, R17). -/
def unitOutputs : UnitInputs → Result
  | .parityUnit cwIn => .parity (computeParity cwIn)
  | .syndromeDecoder cwIn => .errorPosition (locateError cwIn)
  | .nibbleEncoder nibbleIn => .codeword (encodeNibble nibbleIn)
  | .nibbleDecoder cwIn => .nibble (decodeNibble cwIn)
  | .byteEncoder byteIn => .codewordPair (encodeByte byteIn).1 (encodeByte byteIn).2
  | .byteDecoder cwHi cwLo => .byte (decodeByte cwHi cwLo)

/-- A command drives a unit's input ports and returns its outputs: one atomic step (R24, R38, R85). -/
def applyUnit (u : UnitInputs) (s : State) : Host.Outcome State Fault Refusal :=
  complete (unitOutputs u) s

end Sys2Proof.Machine
end

