-- ==== Sys2Proof/Machine/Commands.lean ====
section
/-! DEFINITION. The meaning of each of the six commands (30_encoding.md R38), one definition each. No command writes a flag
(10_state.md R13), and only `ENCN` can fault (60_exceptions.md R70). -/

namespace Sys2Proof.Machine

/-- `PAR`: `cw_in <- A`, result `parity_out` (R43). -/
def execPar (cwIn : Byte) (s : State) : Host.Outcome State Fault Refusal :=
  applyUnit (.parityUnit cwIn) s

/-- `SYN`: `cw_in <- A`, result `err_pos` (R48). -/
def execSyn (cwIn : Byte) (s : State) : Host.Outcome State Fault Refusal :=
  applyUnit (.syndromeDecoder cwIn) s

/-- `ENCN`: `nibble_in <- A[3:0]`, result `cw_out`; a value above 15 raises `PreconditionViolation(value)`, which records the
value and the command word (R53, R54, R70). The word is `encode` of the command, its only spelling (assumption 6). -/
def execEncn (value : Byte) (s : State) : Host.Outcome State Fault Refusal :=
  match nibbleOperand value with
  | none => stopWith (.preconditionViolation value (encode (.encn value))) s
  | some nibbleIn => applyUnit (.nibbleEncoder nibbleIn) s

/-- `DECN`: `cw_in <- A`, result `nibble_out`; the corrected position is not exported (R58, R61). -/
def execDecn (cwIn : Byte) (s : State) : Host.Outcome State Fault Refusal :=
  applyUnit (.nibbleDecoder cwIn) s

/-- `ENCB`: `byte_in <- A`, results `cw_hi` and `cw_lo` (R64). -/
def execEncb (byteIn : Byte) (s : State) : Host.Outcome State Fault Refusal :=
  applyUnit (.byteEncoder byteIn) s

/-- `DECB`: `cw_hi <- A`, `cw_lo <- B`, result `byte_out` (R66). -/
def execDecb (cwHi cwLo : Byte) (s : State) : Host.Outcome State Fault Refusal :=
  applyUnit (.byteDecoder cwHi cwLo) s

end Sys2Proof.Machine
end

