-- ==== Sys2Proof/Machine/Dispatch.lean ====
section
/-! DEFINITION. The one match from a command to its meaning (30_encoding.md R37). -/

namespace Sys2Proof.Machine

def exec (i : Instr) (s : State) : Host.Outcome State Fault Refusal :=
  match i with
  | .par cwIn => Sys2Proof.Machine.execPar cwIn s
  | .syn cwIn => Sys2Proof.Machine.execSyn cwIn s
  | .encn value => Sys2Proof.Machine.execEncn value s
  | .decn cwIn => Sys2Proof.Machine.execDecn cwIn s
  | .encb byteIn => Sys2Proof.Machine.execEncb byteIn s
  | .decb cwHi cwLo => Sys2Proof.Machine.execDecb cwHi cwLo s

end Sys2Proof.Machine
end

