-- ==== Sys2Proof/Machine/Issue.lean ====
section
/-! DEFINITION. Issuing a command: the checks in R73's order, then its meaning (70_reset_and_hazards.md R85). -/

namespace Sys2Proof.Machine

/-- One issued command word: R39 first, then the meaning of the command it decodes to, whose operand check is R53 (R73). -/
def runWord (w : CommandWord) (s : State) : Host.Outcome State Fault Refusal :=
  match decode w with
  | .error _ => stopWith (.illegalCommand w) s
  | .ok i => exec i s

/-- The body of a step: a stopped run issues nothing (R74, R88), with no command pending nothing changes (R88), otherwise the
host's next word is issued and run (R85). -/
def issueStep (s : State) : Host.Outcome State Fault Refusal :=
  if s.faultRecord ≠ [] then stayStopped s
  else
    match s.issue with
    | none => idle s
    | some (w, s') => runWord w s'

end Sys2Proof.Machine
end

