-- ==== Sys2Proof/Machine/Step.lean ====
section
/-! DEFINITION. The step, and how the host's checks place a command where it is issued next. -/

namespace Sys2Proof.Machine

/-- One step of the model: each command is one atomic step (70_reset_and_hazards.md R85). -/
def step (s : State) : Host.Outcome State Fault Refusal :=
  issueStep s

/-- The command word with bits `w` stands next in the host's list, and the run is not stopped, so that the next step issues
it (assumption 10). -/
def State.withFetchWord (s : State) (nbits w : Nat) : State :=
  s.present (tableWord nbits w)

end Sys2Proof.Machine
end

