-- ==== Sys2Proof/WellFormed.lean ====
section
/-! DEFINITION. The operand ranges of the commands (30_encoding.md R41, 42_nibble_codec.md R53). -/

namespace Sys2Proof

/-- The operand is in the range the command's rule gives it: `ENCN` needs a value in [0,15] (R41, R53), every other
operand is any 8-bit value. A word may still DECODE to an ill-formed `ENCN` (R39); its meaning then faults (R70), so
this predicate bounds no step. -/
def Instr.wellFormed : Instr → Bool
  | .par _ => true
  | .syn _ => true
  | .encn value => decide (value.toNat ≤ 15)
  | .decn _ => true
  | .encb _ => true
  | .decb _ _ => true

end Sys2Proof
end

