-- ==== Sys2Proof/Machine/Assembler.lean ====
section
/-! DEFINITION. The assembler of 30_encoding.md R41: one command per line, six mnemonics in any case, unsigned literals, the
directive `.word`, comments from `;`, no labels and no pseudo-instructions (R42). Text is a list of characters. What R41
leaves open of the lexis is assumption 12. -/

namespace Sys2Proof.Machine

/-- Why the assembler refuses a line. -/
inductive AsmError where
  /-- The first word is no mnemonic of R41 and not `.word`. -/
  | unknownMnemonic
  /-- A literal is not decimal, hexadecimal or binary, or a comma is out of place. -/
  | malformedOperand
  /-- The number of operands is not the mnemonic's. -/
  | operandCount
  /-- An operand is outside its stated range. -/
  | outOfRange
  deriving DecidableEq, Repr

/-- A token of a line. -/
inductive AsmToken where
  | text (cs : List Char)
  | comma
  deriving DecidableEq, Repr

/-- Ends the token whose characters, last first, are `cur`. -/
def flushToken (cur : List Char) (rest : List AsmToken) : List AsmToken :=
  match cur with
  | [] => rest
  | _ :: _ => .text cur.reverse :: rest

/-- The tokens of a line: spaces and tabs separate them, a comma is one, `;` ends the line (R41). -/
def lexLine (cur : List Char) : List Char → List AsmToken
  | [] => flushToken cur []
  | c :: cs =>
    if c = ';' then flushToken cur []
    else if c = ' ' ∨ c = '\t' then flushToken cur (lexLine [] cs)
    else if c = ',' then flushToken cur (.comma :: lexLine [] cs)
    else lexLine (c :: cur) cs

/-- The value of one digit, whatever the base. -/
def digitValue (c : Char) : Option Nat :=
  if '0' ≤ c ∧ c ≤ '9' then some (c.toNat - '0'.toNat)
  else if 'a' ≤ c ∧ c ≤ 'f' then some (c.toNat - 'a'.toNat + 10)
  else if 'A' ≤ c ∧ c ≤ 'F' then some (c.toNat - 'A'.toNat + 10)
  else none

/-- The value of a digit string in a base, on top of the value of the digits read before it. -/
def digitsValue (base : Nat) (acc : Nat) : List Char → Option Nat
  | [] => some acc
  | c :: cs =>
    match digitValue c with
    | none => none
    | some d => if d < base then digitsValue base (base * acc + d) cs else none

/-- An unsigned literal: `0x…` hexadecimal, `0b…` binary, otherwise decimal (R41). -/
def literalValue : List Char → Option Nat
  | [] => none
  | ['0', 'x'] => none
  | ['0', 'b'] => none
  | '0' :: 'x' :: ds => digitsValue 16 0 ds
  | '0' :: 'b' :: ds => digitsValue 2 0 ds
  | ds => digitsValue 10 0 ds

/-- The operands of a line: literals separated by commas. -/
def operandValues : List AsmToken → Option (List Nat)
  | [] => some []
  | [.text cs] => (literalValue cs).map fun n => [n]
  | .text cs :: .comma :: rest =>
    match rest with
    | [] => none
    | _ :: _ =>
      match literalValue cs, operandValues rest with
      | some n, some ns => some (n :: ns)
      | _, _ => none
  | _ => none

/-- The unit of a mnemonic, in any case (R41). -/
def unitOfMnemonic (cs : List Char) : Option HammingUnit :=
  let m := cs.map Char.toUpper
  if m = ['P', 'A', 'R'] then some .parityUnit
  else if m = ['S', 'Y', 'N'] then some .syndromeDecoder
  else if m = ['E', 'N', 'C', 'N'] then some .nibbleEncoder
  else if m = ['D', 'E', 'C', 'N'] then some .nibbleDecoder
  else if m = ['E', 'N', 'C', 'B'] then some .byteEncoder
  else if m = ['D', 'E', 'C', 'B'] then some .byteDecoder
  else none

/-- The word of a command, refused where an operand is outside its stated range (R41): first 8 bits, then the range of the
command's own operand. -/
def assembleInstr (u : HammingUnit) (a b : Nat) : Except AsmError CommandWord :=
  if a < 256 ∧ b < 256 then
    let i := instrOf u (BitVec.ofNat 8 a) (BitVec.ofNat 8 b)
    if i.wellFormed then .ok (encode i) else .error .outOfRange
  else .error .outOfRange

/-- A mnemonic with its operand values: `DECB` has two, every other command one (R41). -/
def assembleCommand (u : HammingUnit) (ops : List Nat) : Except AsmError CommandWord :=
  match u, ops with
  | .byteDecoder, [h, l] => assembleInstr .byteDecoder h l
  | .byteDecoder, _ => .error .operandCount
  | u, [a] => assembleInstr u a 0
  | _, _ => .error .operandCount

/-- The directive `.word`: any raw 24-bit word (R41). -/
def assembleRaw (ops : List Nat) : Except AsmError CommandWord :=
  match ops with
  | [w] => if w < 2 ^ 24 then .ok (BitVec.ofNat 24 w) else .error .outOfRange
  | _ => .error .operandCount

/-- One line: no command where it is blank or a comment, otherwise its word (R41). -/
def assembleLine (line : List Char) : Except AsmError (Option CommandWord) :=
  match lexLine [] line with
  | [] => .ok none
  | .comma :: _ => .error .malformedOperand
  | .text m :: rest =>
    match operandValues rest with
    | none => .error .malformedOperand
    | some ops =>
      if m = ['.', 'w', 'o', 'r', 'd'] then (assembleRaw ops).map some
      else
        match unitOfMnemonic m with
        | none => .error .unknownMnemonic
        | some u => (assembleCommand u ops).map some

/-- The lines of a text; `cur` holds the current line's characters, last first. -/
def splitLines (cur : List Char) : List Char → List (List Char)
  | [] => [cur.reverse]
  | c :: cs => if c = '\n' then cur.reverse :: splitLines [] cs else splitLines (c :: cur) cs

/-- The command words of a list of lines, in order; refused at the first refused line. -/
def assembleLines : List (List Char) → Except AsmError (List CommandWord)
  | [] => .ok []
  | line :: rest =>
    match assembleLine line, assembleLines rest with
    | .error e, _ => .error e
    | .ok _, .error e => .error e
    | .ok none, .ok ws => .ok ws
    | .ok (some w), .ok ws => .ok (w :: ws)

/-- A program's text to its list of command words (R41, R88). -/
def assembleProgram (text : List Char) : Except AsmError (List CommandWord) :=
  assembleLines (splitLines [] text)

end Sys2Proof.Machine
end

