-- ==== Sys2Proof/Safety.lean ====
section
/-! DEFINITION. What claims are stated in: the words R39 and R53 reject, the values a unit can put on its output ports, the
invariant of the state, what a stop leaves, and the two ends of a run (70_reset_and_hazards.md R88). These are written from
the rules' own words and use neither the decoder's verdict nor the units' functions. -/

namespace Sys2Proof.Machine

/-- R39: `op` is `110` or `111`, or `rsv ≠ 0`, or `op` is not `101` and `B ≠ 0`. -/
def illegalWord (w : CommandWord) : Bool :=
  decide (opField w = 0b110 ∨ opField w = 0b111 ∨ rsvField w ≠ 0 ∨ (opField w ≠ 0b101 ∧ bField w ≠ 0))

/-- R70's command-word terms: `op = 010`, `rsv = 0`, `B = 0` and `A[7:4] ≠ 0`. -/
def preconditionWord (w : CommandWord) : Bool :=
  decide (opField w = 0b010 ∧ rsvField w = 0 ∧ bField w = 0 ∧ (aField w).extractLsb' 4 4 ≠ 0)

/-- A command word that produces a result: neither refused nor faulting (R39, R73). -/
def completingWord (w : CommandWord) : Bool :=
  !illegalWord w && !preconditionWord w

/-- What the issue of a word that does not complete leaves in the fault record; R39 is checked first (R73). -/
def stopEntry (w : CommandWord) : FaultEntry :=
  if illegalWord w then .illegalCommand w else .preconditionViolation (aField w) w

/-- The 16 valid codewords in the order of their nibbles, transcribed from the encode table (R56; `ENCN 9` is 25, C1). -/
def codewordTable : List Codeword :=
  [0x00, 0x69, 0x2A, 0x43, 0x4C, 0x25, 0x66, 0x0F, 0x70, 0x19, 0x5A, 0x33, 0x3C, 0x55, 0x16, 0x7F]

/-- A codeword the block may produce: valid (R30) and with bit 7 equal to 0 (R31, R55, R65). -/
def producedCodeword (c : Codeword) : Bool :=
  valid c && !c.getLsbD 7

/-- A result some unit can show: a parity word has bits 6, 5 and 3 only (R33), a codeword is valid with bit 7 equal to 0
(R55, R65); positions, nibbles and bytes take every value of their widths (R10). -/
def Result.producible : Result → Bool
  | .parity p => p &&& ~~~parityMask == 0
  | .errorPosition _ => true
  | .codeword c => producedCodeword c
  | .nibble _ => true
  | .codewordPair hi lo => producedCodeword hi && producedCodeword lo
  | .byte _ => true

/-- A fault-record entry that names the right word: R70's shape with its own operand, or a word R39 rejects (R71). -/
def FaultEntry.genuine : FaultEntry → Bool
  | .preconditionViolation value word => preconditionWord word && value == aField word
  | .illegalCommand word => illegalWord word

/-- The result record a unit's command leaves has the unit's own output ports (R38). -/
def Result.ofUnit : HammingUnit → Result → Bool
  | .parityUnit, .parity _ => true
  | .syndromeDecoder, .errorPosition _ => true
  | .nibbleEncoder, .codeword _ => true
  | .nibbleDecoder, .nibble _ => true
  | .byteEncoder, .codewordPair _ _ => true
  | .byteDecoder, .byte _ => true
  | _, _ => false

/-- The invariant: every result is one a unit can show, the fault record holds at most one outcome (a run stops at the
first, R74), and that outcome is a genuine one. -/
def State.Inv (s : State) : Prop :=
  (∀ r ∈ s.results, r.producible = true) ∧ s.faultRecord.length ≤ 1 ∧ ∀ e ∈ s.faultRecord, e.genuine = true

/-- The state a fault leaves. -/
def Fault.after : Fault → State
  | .preconditionViolation _ _ after => after
  | .runStopped after => after

/-- The state a refusal leaves; none for an instruction without a meaning. -/
def Refusal.after : Refusal → Option State
  | .illegalCommand _ after => some after
  | _ => none

/-- The state a step leaves, whatever its outcome. -/
def stateAfter : Host.Outcome State Fault Refusal → Option State
  | .next t => some t
  | .fault r => some r.after
  | .refused r => r.after

/-- R88 (a): issuing `n` commands from `s` produced `n` results and left the fault record empty. -/
def RunSucceeds (s : State) (n : Nat) (results : List Result) : Prop :=
  ∃ t, Host.Core.run Sys2Proof.core n s = .next t ∧ t.results = s.results ++ results
    ∧ results.length = n ∧ t.faultRecord = []

/-- R88 (b): issuing `n` commands from `s` stopped, and left the results of the commands before the one that stopped and its
outcome in the fault record. -/
def RunStops (s : State) (n : Nat) (results : List Result) (e : FaultEntry) : Prop :=
  ∃ t, stateAfter (Host.Core.run Sys2Proof.core n s) = some t
    ∧ (∀ u, Host.Core.run Sys2Proof.core n s ≠ .next u)
    ∧ t.results = s.results ++ results ∧ t.faultRecord = [e]

end Sys2Proof.Machine
end

