-- ==== Sys2Proof/Certificates/Slice0/Obligations.lean ====
section
/-! DEFINITION. The statements for the provers. Each docstring names the rule of spec/ it formalises. A result is stated as
`exec i s = .next { s with results := s.results ++ [r] }`, which is also the command's frame: nothing else of the state
changes. A state in which `w` is issued next by a run that is not stopped is written out as
`{ s with pending := w :: rest, faultRecord := [] }`. -/

open Sys2Proof Sys2Proof.Machine

/-- R43 with its encoding line and R33: the parity word of `PAR`, all eight bits, for every operand and every state. -/
def Obligations.ParComputesParityWord : Prop :=
  ∀ a : Byte,
    decode (0b000#3 ++ 0#5 ++ 0#8 ++ a) = .ok (.par a) ∧
    ∃ p : Byte,
      p.getLsbD 6 = (a.getLsbD 4 ^^ a.getLsbD 2 ^^ a.getLsbD 0) ∧
      p.getLsbD 5 = (a.getLsbD 4 ^^ a.getLsbD 1 ^^ a.getLsbD 0) ∧
      p.getLsbD 3 = (a.getLsbD 2 ^^ a.getLsbD 1 ^^ a.getLsbD 0) ∧
      p.getLsbD 7 = false ∧ p.getLsbD 4 = false ∧ p.getLsbD 2 = false ∧
      p.getLsbD 1 = false ∧ p.getLsbD 0 = false ∧
      ∀ s : State, exec (.par a) s = .next { s with results := s.results ++ [.parity p] }

/-- R44: the parity unit reads bits 4, 2, 1 and 0 of its input and nothing else. -/
def Obligations.ParReadsOnlyDataBits : Prop :=
  (∀ (c : Byte) (s : State), exec (.par c) s = exec (.par (c &&& 0x17)) s) ∧
  ∀ (c d : Byte) (s : State),
    c.getLsbD 4 = d.getLsbD 4 → c.getLsbD 2 = d.getLsbD 2 → c.getLsbD 1 = d.getLsbD 1 →
    c.getLsbD 0 = d.getLsbD 0 → exec (.par c) s = exec (.par d) s

/-- R45: the parity word of every data pattern, and of every input with the same data bits. -/
def Obligations.ParTableOfDataPatterns : Prop :=
  ∀ n : Nibble, ∃ p : Byte,
    ([0x00, 0x01, 0x02, 0x03, 0x04, 0x05, 0x06, 0x07, 0x10, 0x11, 0x12, 0x13, 0x14, 0x15, 0x16, 0x17] :
      List Byte)[n.toNat]? = some (dataBits n) ∧
    ([0x00, 0x68, 0x28, 0x40, 0x48, 0x20, 0x60, 0x08, 0x60, 0x08, 0x48, 0x20, 0x28, 0x40, 0x00, 0x68] :
      List Byte)[n.toNat]? = some p ∧
    ∀ (c : Byte) (s : State), c &&& 0x17 = dataBits n →
      exec (.par c) s = .next { s with results := s.results ++ [.parity p] }

/-- R46: `PAR` is linear over xor, and a flip of one input bit changes the parity word by a constant. -/
def Obligations.ParIsLinearOverXor : Prop :=
  ∃ f : Byte → Byte,
    (∀ (a : Byte) (s : State), exec (.par a) s = .next { s with results := s.results ++ [.parity (f a)] }) ∧
    (∀ a b : Byte, f (a ^^^ b) = f a ^^^ f b) ∧ f 0 = 0 ∧
    (∀ c : Byte, f (c ^^^ 0x10) = f c ^^^ 0x60 ∧ f (c ^^^ 0x04) = f c ^^^ 0x48 ∧
      f (c ^^^ 0x02) = f c ^^^ 0x28 ∧ f (c ^^^ 0x01) = f c ^^^ 0x68) ∧
    ∀ c : Byte, f (c ^^^ 0x80) = f c ∧ f (c ^^^ 0x40) = f c ∧ f (c ^^^ 0x20) = f c ∧ f (c ^^^ 0x08) = f c

/-- R48 with its encoding line: `SYN` answers `7 - S`, with `S` from the mismatch between the word and the parity that `PAR`
computes of it. -/
def Obligations.SynAnswersSevenMinusSyndrome : Prop :=
  ∀ a : Byte,
    decode (0b001#3 ++ 0#5 ++ 0#8 ++ a) = .ok (.syn a) ∧
    ∃ (expected : Byte) (pos : Position),
      (∀ s : State, exec (.par a) s = .next { s with results := s.results ++ [.parity expected] }) ∧
      pos.toNat + (4 * ((a ^^^ expected).getLsbD 3).toNat + 2 * ((a ^^^ expected).getLsbD 5).toNat
        + ((a ^^^ expected).getLsbD 6).toNat) = 7 ∧
      ∀ s : State, exec (.syn a) s = .next { s with results := s.results ++ [.errorPosition pos] }

/-- R49: the eight-entry syndrome table for every received word, and the position named after no flip and after each single
flip of a valid codeword. -/
def Obligations.SynTableNamesTheFlippedBit : Prop :=
  (∀ row ∈ ([(false, false, false, 7), (false, false, true, 6), (false, true, false, 5), (false, true, true, 4),
      (true, false, false, 3), (true, false, true, 2), (true, true, false, 1), (true, true, true, 0)] :
      List (Bool × Bool × Bool × Position)),
    ∀ (a : Byte) (s : State),
      (a.getLsbD 3 ^^ a.getLsbD 2 ^^ a.getLsbD 1 ^^ a.getLsbD 0) = row.1 →
      (a.getLsbD 5 ^^ a.getLsbD 4 ^^ a.getLsbD 1 ^^ a.getLsbD 0) = row.2.1 →
      (a.getLsbD 6 ^^ a.getLsbD 4 ^^ a.getLsbD 2 ^^ a.getLsbD 0) = row.2.2.1 →
      exec (.syn a) s = .next { s with results := s.results ++ [.errorPosition row.2.2.2] }) ∧
  ∀ (c : Byte) (s : State), valid c = true →
    exec (.syn c) s = .next { s with results := s.results ++ [.errorPosition 7] } ∧
    ∀ b < 7, exec (.syn (c ^^^ (1#8 <<< b))) s =
      .next { s with results := s.results ++ [.errorPosition (BitVec.ofNat 3 b)] }

/-- R51: two flips name a third bit, never 7, and flipping it gives another valid codeword; of the 560 words three flips away
from a codeword exactly 112 answer 7, and every other names a bit that was not flipped, whose flip gives a valid word. -/
def Obligations.SynAfterTwoOrThreeFlips : Prop :=
  ∃ f : Byte → Position,
    (∀ (a : Byte) (s : State), exec (.syn a) s = .next { s with results := s.results ++ [.errorPosition (f a)] }) ∧
    (∀ c : Byte, valid c = true → ∀ b₁ < 7, ∀ b₂ < 7, b₁ ≠ b₂ →
      ∃ b₃ < 7, b₃ ≠ b₁ ∧ b₃ ≠ b₂ ∧ f (c ^^^ (1#8 <<< b₁) ^^^ (1#8 <<< b₂)) = BitVec.ofNat 3 b₃ ∧
        valid (c ^^^ (1#8 <<< b₁) ^^^ (1#8 <<< b₂) ^^^ (1#8 <<< b₃)) = true ∧
        flippedBits ((1#8 <<< b₁) ^^^ (1#8 <<< b₂) ^^^ (1#8 <<< b₃)) ≠ 0) ∧
    (codewordTable.flatMap fun c => ((List.range 128).filter fun e =>
      flippedBits (BitVec.ofNat 8 e) = 3 ∧ f (c ^^^ BitVec.ofNat 8 e) = 7)).length = 112 ∧
    (codewordTable.flatMap fun _ => ((List.range 128).filter fun e =>
      flippedBits (BitVec.ofNat 8 e) = 3)).length = 560 ∧
    ∀ c ∈ codewordTable, ∀ e : Byte, flippedBits e = 3 → f (c ^^^ e) ≠ 7 →
      e.getLsbD (f (c ^^^ e)).toNat = false ∧ valid (c ^^^ e ^^^ (1#8 <<< (f (c ^^^ e)).toNat)) = true

/-- R52: bit 7 of the received word never changes the error position. -/
def Obligations.SynIgnoresBitSeven : Prop :=
  ∀ (c : Byte) (s : State), exec (.syn c) s = exec (.syn (c &&& 0x7F)) s

/-- R54 with its encoding line: `ENCN` relocates the nibble, adds the parity `PAR` computes of it, and raises
`PreconditionViolation` above 15. -/
def Obligations.EncnRelocatesAndAddsParity : Prop :=
  ∀ a : Byte,
    decode (0b010#3 ++ 0#5 ++ 0#8 ++ a) = .ok (.encn a) ∧
    (a.toNat ≤ 15 → ∃ c p : Byte,
      c = (if a.getLsbD 3 then (a &&& ~~~0x08) ||| 0x10 else a) ∧
      (∀ s : State, exec (.par c) s = .next { s with results := s.results ++ [.parity p] }) ∧
      c &&& p = 0 ∧
      ∀ s : State, exec (.encn a) s = .next { s with results := s.results ++ [.codeword (c ||| p)] }) ∧
    (15 < a.toNat → ∀ s : State, ∃ (word : CommandWord) (after : State),
      exec (.encn a) s = .fault (.preconditionViolation a word after))

/-- R55: what every encoded nibble guarantees, bit by bit. -/
def Obligations.EncnResultIsTheNibblesCodeword : Prop :=
  ∀ v : Nibble, ∃ c : Codeword,
    (∀ s : State, exec (.encn (v.zeroExtend 8)) s = .next { s with results := s.results ++ [.codeword c] }) ∧
    c.getLsbD 4 = v.getLsbD 3 ∧ c.getLsbD 2 = v.getLsbD 2 ∧ c.getLsbD 1 = v.getLsbD 1 ∧ c.getLsbD 0 = v.getLsbD 0 ∧
    c.getLsbD 6 = (v.getLsbD 3 ^^ v.getLsbD 2 ^^ v.getLsbD 0) ∧
    c.getLsbD 5 = (v.getLsbD 3 ^^ v.getLsbD 1 ^^ v.getLsbD 0) ∧
    c.getLsbD 3 = (v.getLsbD 2 ^^ v.getLsbD 1 ^^ v.getLsbD 0) ∧
    c.getLsbD 7 = false ∧ c.toNat ≤ 127

/-- R56: the encode table with its columns `c`, `p` and `cw_out`; its results are exactly the valid words with bit 7 clear, and
no two are equal. -/
def Obligations.EncnTableOfCodewords : Prop :=
  (∀ v : Nibble, ∃ c p cw : Byte,
    ([0x00, 0x01, 0x02, 0x03, 0x04, 0x05, 0x06, 0x07, 0x10, 0x11, 0x12, 0x13, 0x14, 0x15, 0x16, 0x17] :
      List Byte)[v.toNat]? = some c ∧
    ([0x00, 0x68, 0x28, 0x40, 0x48, 0x20, 0x60, 0x08, 0x60, 0x08, 0x48, 0x20, 0x28, 0x40, 0x00, 0x68] :
      List Byte)[v.toNat]? = some p ∧
    codewordTable[v.toNat]? = some cw ∧ relocate (v.zeroExtend 8) = c ∧
    (∀ s : State, exec (.par c) s = .next { s with results := s.results ++ [.parity p] }) ∧
    ∀ s : State, exec (.encn (v.zeroExtend 8)) s = .next { s with results := s.results ++ [.codeword cw] }) ∧
  (∀ c : Codeword, c ∈ codewordTable ↔ valid c = true ∧ c.getLsbD 7 = false) ∧ codewordTable.Nodup

/-- R70: the fault of an out-of-range nibble, what it records and leaves, its code, and that no other command faults. That the
fault carries the state it leaves is the model's form (assumption 2). -/
def Obligations.OnlyEncnAboveFifteenFaults : Prop :=
  (∀ (a : Byte) (s : State), 15 < a.toNat →
    exec (.encn a) s = .fault (.preconditionViolation a (0b010#3 ++ 0#5 ++ 0#8 ++ a)
      { s with faultRecord := s.faultRecord ++ [.preconditionViolation a (0b010#3 ++ 0#5 ++ 0#8 ++ a)] })) ∧
  (∀ (a : Byte) (w : CommandWord), (FaultEntry.preconditionViolation a w).code = 1) ∧
  ∀ (i : Instr) (s : State) (r : Fault), exec i s = .fault r → ∃ a : Byte, i = .encn a ∧ 15 < a.toNat

/-- R57 and R58 with its encoding line: the six steps of `DECN`, for every 8-bit word. -/
def Obligations.DecnFollowsTheSixSteps : Prop :=
  ∀ a : Byte,
    decode (0b011#3 ++ 0#5 ++ 0#8 ++ a) = .ok (.decn a) ∧
    ∃ (pos : Position) (flipped p stripped back : Byte),
      (∀ s : State, exec (.syn a) s = .next { s with results := s.results ++ [.errorPosition pos] }) ∧
      flipped = (if pos = 7 then a else a ^^^ (1#8 <<< pos.toNat)) ∧
      (∀ s : State, exec (.par flipped) s = .next { s with results := s.results ++ [.parity p] }) ∧
      stripped = flipped &&& ~~~p ∧
      back = (if stripped.getLsbD 4 then (stripped &&& ~~~0x10) ||| 0x08 else stripped) ∧
      ∀ s : State, exec (.decn a) s = .next { s with results := s.results ++ [.nibble (back.extractLsb' 0 4)] }

/-- R62: the corrected word is valid, its data bits are the result, bit 7 is ignored, and the result is the nibble that `ENCN`
encodes to the one codeword at most one flip away. -/
def Obligations.DecnReturnsTheNearestCodewordsNibble : Prop :=
  ∀ a : Byte, ∃ (pos : Position) (corrected : Byte) (n : Nibble) (c : Codeword),
    (∀ s : State, exec (.syn a) s = .next { s with results := s.results ++ [.errorPosition pos] }) ∧
    corrected = (if pos = 7 then a else a ^^^ (1#8 <<< pos.toNat)) ∧ valid corrected = true ∧
    n.getLsbD 3 = corrected.getLsbD 4 ∧ n.getLsbD 2 = corrected.getLsbD 2 ∧
    n.getLsbD 1 = corrected.getLsbD 1 ∧ n.getLsbD 0 = corrected.getLsbD 0 ∧
    (∀ s : State, exec (.decn a) s = .next { s with results := s.results ++ [.nibble n] }) ∧
    (∀ s : State, exec (.decn (a &&& 0x7F)) s = .next { s with results := s.results ++ [.nibble n] }) ∧
    (∀ s : State, exec (.encn (n.zeroExtend 8)) s = .next { s with results := s.results ++ [.codeword c] }) ∧
    ∀ d ∈ codewordTable, flippedBits (a ^^^ d) ≤ 1 ↔ d = c

/-- R59: round trip without error, and correction of every single flip of bits 0 to 6. -/
def Obligations.DecnCorrectsEverySingleFlip : Prop :=
  ∀ v : Nibble, ∃ c : Codeword,
    (∀ s : State, exec (.encn (v.zeroExtend 8)) s = .next { s with results := s.results ++ [.codeword c] }) ∧
    (∀ s : State, exec (.decn c) s = .next { s with results := s.results ++ [.nibble v] }) ∧
    ∀ b < 7, ∀ s : State,
      exec (.decn (c ^^^ (1#8 <<< b))) s = .next { s with results := s.results ++ [.nibble v] }

/-- R60: the decoded nibble is right if and only if at most one of bits 6 to 0 was flipped. -/
def Obligations.DecnIsRightExactlyUpToOneFlip : Prop :=
  ∀ v : Nibble, ∃ c : Codeword,
    (∀ s : State, exec (.encn (v.zeroExtend 8)) s = .next { s with results := s.results ++ [.codeword c] }) ∧
    ∀ e : Byte, ∃ n : Nibble,
      (∀ s : State, exec (.decn (c ^^^ e)) s = .next { s with results := s.results ++ [.nibble n] }) ∧
      (n = v ↔ flippedBits e ≤ 1)

/-- R64 with its encoding line: `ENCB` is the two nibble encodings `ENCN` gives of the byte's halves, high half first. -/
def Obligations.EncbEncodesBothHalves : Prop :=
  ∀ x : Byte,
    decode (0b100#3 ++ 0#5 ++ 0#8 ++ x) = .ok (.encb x) ∧
    ∃ h l : Codeword,
      (∀ s : State, exec (.encn (x >>> 4)) s = .next { s with results := s.results ++ [.codeword h] }) ∧
      (∀ s : State, exec (.encn (x &&& 0xF)) s = .next { s with results := s.results ++ [.codeword l] }) ∧
      ∀ s : State, exec (.encb x) s = .next { s with results := s.results ++ [.codewordPair h l] }

/-- R65: both codewords of a byte are valid and in [0,127]. -/
def Obligations.EncbGivesTwoValidCodewords : Prop :=
  ∀ x : Byte, ∃ h l : Codeword,
    (∀ s : State, exec (.encb x) s = .next { s with results := s.results ++ [.codewordPair h l] }) ∧
    valid h = true ∧ h.toNat ≤ 127 ∧ valid l = true ∧ l.toNat ≤ 127

/-- R66 with its encoding line: `DECB` is the two nibbles `DECN` gives of its codewords, `cw_hi` in the high half. -/
def Obligations.DecbJoinsBothNibbles : Prop :=
  ∀ h l : Byte,
    decode (0b101#3 ++ 0#5 ++ l ++ h) = .ok (.decb h l) ∧
    ∃ nh nl : Nibble,
      (∀ s : State, exec (.decn h) s = .next { s with results := s.results ++ [.nibble nh] }) ∧
      (∀ s : State, exec (.decn l) s = .next { s with results := s.results ++ [.nibble nl] }) ∧
      ∀ s : State, exec (.decb h l) s =
        .next { s with results := s.results ++ [.byte ((nh.zeroExtend 8 <<< 4) ||| nl.zeroExtend 8)] }

/-- R63: no bit of one lane reaches an output bit of the other, in either direction. -/
def Obligations.ByteLanesAreIndependent : Prop :=
  (∃ hi lo : Nibble → Codeword, ∀ (x : Byte) (s : State),
    exec (.encb x) s = .next { s with
      results := s.results ++ [.codewordPair (hi (x.extractLsb' 4 4)) (lo (x.extractLsb' 0 4))] }) ∧
  ∃ hi lo : Codeword → Nibble, ∀ (h l : Codeword) (s : State),
    exec (.decb h l) s = .next { s with results := s.results ++ [.byte (hi h ++ lo l)] }

/-- R67: decoding the pair a byte encodes to gives the byte back. -/
def Obligations.ByteRoundTrip : Prop :=
  ∀ x : Byte, ∃ h l : Codeword,
    (∀ s : State, exec (.encb x) s = .next { s with results := s.results ++ [.codewordPair h l] }) ∧
    ∀ s : State, exec (.decb h l) s = .next { s with results := s.results ++ [.byte x] }

/-- R68: each half of the decoded byte is right if and only if its own codeword has at most one flip in bits 6 to 0. -/
def Obligations.DecbCorrectsOneFlipPerLane : Prop :=
  ∀ x : Byte, ∃ h l : Codeword,
    (∀ s : State, exec (.encb x) s = .next { s with results := s.results ++ [.codewordPair h l] }) ∧
    ∀ eHi eLo : Byte, ∃ y : Byte,
      (∀ s : State, exec (.decb (h ^^^ eHi) (l ^^^ eLo)) s = .next { s with results := s.results ++ [.byte y] }) ∧
      (y.extractLsb' 4 4 = x.extractLsb' 4 4 ↔ flippedBits eHi ≤ 1) ∧
      (y.extractLsb' 0 4 = x.extractLsb' 0 4 ↔ flippedBits eLo ≤ 1)

/-- R31: bit 7 is 0 in every produced codeword, and bit 7 of a codeword input changes no output. -/
def Obligations.BitSevenIsZeroOutAndIgnoredIn : Prop :=
  (∀ (i : Instr) (s t : State) (c : Codeword), exec i s = .next t → t.results = s.results ++ [.codeword c] →
    c.getLsbD 7 = false) ∧
  (∀ (i : Instr) (s t : State) (h l : Codeword), exec i s = .next t →
    t.results = s.results ++ [.codewordPair h l] → h.getLsbD 7 = false ∧ l.getLsbD 7 = false) ∧
  ∀ (a b : Byte) (s : State),
    exec (.par (a ^^^ 0x80)) s = exec (.par a) s ∧ exec (.syn (a ^^^ 0x80)) s = exec (.syn a) s ∧
    exec (.decn (a ^^^ 0x80)) s = exec (.decn a) s ∧ exec (.decb (a ^^^ 0x80) b) s = exec (.decb a b) s ∧
    exec (.decb a (b ^^^ 0x80)) s = exec (.decb a b) s

/-- R69: every command whose operand is in range completes in every state, with a result of its own unit's ports and nothing
else changed. -/
def Obligations.EveryWellFormedCommandCompletes : Prop :=
  ∀ i : Instr, i.wellFormed = true → ∃ r : Result, Result.ofUnit i.unit r = true ∧
    ∀ s : State, exec i s = .next { s with results := s.results ++ [r] }

/-- R72: no received word, however many of its bits are flipped, faults or is refused by any unit that takes codewords. -/
def Obligations.ReceivedWordsNeverFault : Prop :=
  ∀ (c e d f : Byte) (s : State), ∃ (pos : Position) (n : Nibble) (y : Byte),
    exec (.syn (c ^^^ e)) s = .next { s with results := s.results ++ [.errorPosition pos] } ∧
    exec (.decn (c ^^^ e)) s = .next { s with results := s.results ++ [.nibble n] } ∧
    exec (.decb (c ^^^ e) (d ^^^ f)) s = .next { s with results := s.results ++ [.byte y] }

/-- R8 and R25: a command's result depends on its own operands only, whatever was done before it. -/
def Obligations.ResultsDependOnlyOnOwnOperands : Prop :=
  ∀ (i : Instr) (s s' t : State), exec i s = .next s' →
    ∃ r : Result, s' = { s with results := s.results ++ [r] } ∧
      exec i t = .next { t with results := t.results ++ [r] }

/-- R39, R71 and R73: every issued word has exactly one outcome. A word R39 rejects is refused and recorded, whatever its `A`;
a word of R70's shape that R39 passes faults and is recorded; every other word produces one result. The recorded outcome
stands in the state the outcome carries (assumption 2). -/
def Obligations.EveryWordHasExactlyOneOutcome : Prop :=
  ∀ (w : CommandWord) (s : State) (rest : List CommandWord),
    let issued : State := { s with pending := w :: rest, faultRecord := [] }
    if w.extractLsb' 21 3 = 0b110 ∨ w.extractLsb' 21 3 = 0b111 ∨ w.extractLsb' 16 5 ≠ 0#5 ∨
        (w.extractLsb' 21 3 ≠ 0b101 ∧ w.extractLsb' 8 8 ≠ 0#8) then
      step issued = .refused (.illegalCommand w
        { s with pending := rest, faultRecord := [.illegalCommand w] }) ∧
      (FaultEntry.illegalCommand w).code = 2
    else if w.extractLsb' 21 3 = 0b010 ∧ w.extractLsb' 4 4 ≠ 0#4 then
      step issued = .fault (.preconditionViolation (w.extractLsb' 0 8) w
        { s with pending := rest, faultRecord := [.preconditionViolation (w.extractLsb' 0 8) w] })
    else
      ∃ r : Result, step issued = .next { pending := rest, results := s.results ++ [r], faultRecord := [] }

/-- R36 to R38: decoding the word of any command gives the command back, with every operand bit. -/
def Obligations.DecodeOfEncodeIsTheCommand : Prop :=
  ∀ i : Instr, decode (encode i) = .ok i

/-- R36 to R39: every word that R39 does not reject is the encoding of exactly one command, the one it decodes to. -/
def Obligations.EveryLegalWordEncodesOneCommand : Prop :=
  ∀ w : CommandWord, illegalWord w = false →
    ∃ i : Instr, decode w = .ok i ∧ encode i = w ∧ ∀ j : Instr, encode j = w → j = i

/-- The decoder agrees with opcode_table.json: a word decodes to a unit's command exactly when it matches that unit's row, and
no word matches two rows. -/
def Obligations.DecoderAgreesWithOpcodeTable : Prop :=
  (∀ (w : CommandWord) (u : HammingUnit),
    (∃ row ∈ opcodeTable, row.unit = u ∧ row.matches w = true) ↔ ∃ i : Instr, decode w = .ok i ∧ i.unit = u) ∧
  ∀ w : CommandWord, ∀ r₁ ∈ opcodeTable, ∀ r₂ ∈ opcodeTable,
    r₁.matches w = true → r₂.matches w = true → r₁ = r₂

/-- Sanity words written out from R36 and R37, from the tables of 95_test_vectors.md. -/
def Obligations.SampleWordsDecode : Prop :=
  decode 0x000069 = .ok (.par 0x69) ∧ decode 0x200079 = .ok (.syn 0x79) ∧
  decode 0x400009 = .ok (.encn 9) ∧ decode 0x600059 = .ok (.decn 89) ∧
  decode 0x800023 = .ok (.encb 0x23) ∧ decode 0xA0432A = .ok (.decb 42 67)

/-- R85: a step issues the next word and runs exactly the command it decodes to, in the state without that word; a word placed
by `withFetchWord` is the one issued. The host's list in the state is the model's form of R12's list (assumption 1), and
`withFetchWord` is assumption 10. -/
def Obligations.StepRunsTheDecodedCommand : Prop :=
  ∀ (w : CommandWord) (i : Instr) (s : State) (rest : List CommandWord), decode w = .ok i →
    step { s with pending := w :: rest, faultRecord := [] } =
      exec i { s with pending := rest, faultRecord := [] } ∧
    step (s.withFetchWord 24 w.toNat) = exec i { s with pending := s.pending.tail, faultRecord := [] }

/-- R74: a stop writes no result, its outcome enters the fault record, no step clears the record, and nothing is issued after
it. -/
def Obligations.StopsAreRecordedAndFinal : Prop :=
  ∀ s t : State, stateAfter (step s) = some t →
    (∃ es : List FaultEntry, t.faultRecord = s.faultRecord ++ es) ∧
    ((∀ u : State, step s ≠ .next u) →
      t.results = s.results ∧ t.faultRecord ≠ [] ∧ ∀ u : State, step t ≠ .next u)

/-- The model's own stuck state (assumption 3): a stopped run faults by name and changes nothing. -/
def Obligations.StoppedRunFaultsByName : Prop :=
  ∀ s : State, s.faultRecord ≠ [] → step s = .fault (.runStopped s)

/-- The model's own idle step (assumption 4): with no command pending and nothing recorded, a step changes nothing. -/
def Obligations.NoPendingCommandChangesNothing : Prop :=
  ∀ s : State, s.pending = [] → s.faultRecord = [] → step s = .next s

/-- R80 and R88: a step that goes on has either nothing to issue, or issues exactly the next command of the list, once, and
appends one result. -/
def Obligations.StepConsumesOneCommandInOrder : Prop :=
  ∀ s t : State, step s = .next t → t.faultRecord = s.faultRecord ∧
    ((s.pending = [] ∧ t = s) ∨
      ∃ (w : CommandWord) (r : Result), s.pending = w :: t.pending ∧ t.results = s.results ++ [r] ∧
        completingWord w = true)

/-- R82: the model starts with an empty result list and an empty fault record. -/
def Obligations.ResetListsAreEmpty : Prop :=
  State.reset.results = [] ∧ State.reset.faultRecord = []

/-- R83: the first command may be the first thing the host does; no set-up precedes it. -/
def Obligations.FirstCommandRunsFromReset : Prop :=
  ∀ (i : Instr) (rest : List CommandWord), i.wellFormed = true → ∃ r : Result,
    step (State.load (encode i :: rest)) = .next { pending := rest, results := [r], faultRecord := [] } ∧
    Result.ofUnit i.unit r = true

/-- R88: a run of commands in range succeeds with one result each, in order, from any state whose run is not stopped (the
empty list included); a run that reaches a word which does not complete stops there, with the results of the commands
before it only and its outcome in the record, however many steps are taken. Each command's result is its own, so any order
gives each the same (R25). -/
def Obligations.RunsSucceedOrStopAtTheFirstFault : Prop :=
  ∃ f : Instr → Result,
    ∀ (cs : List Instr) (s : State) (rest : List CommandWord), (∀ c ∈ cs, c.wellFormed = true) →
      RunSucceeds { s with pending := cs.map encode ++ rest, faultRecord := [] } cs.length (cs.map f) ∧
      ∀ (w : CommandWord) (n : Nat), completingWord w = false → cs.length < n →
        RunStops { s with pending := cs.map encode ++ w :: rest, faultRecord := [] } n (cs.map f) (stopEntry w)

/-- The invariant holds at reset. -/
def Obligations.ResetSatisfiesTheInvariant : Prop :=
  State.reset.Inv

/-- R33, R55, R65, R74: from every state that meets the invariant, a step's next state meets it: every listed result is one
its unit can show, and the record holds at most one outcome, a genuine one. -/
def Obligations.StepKeepsTheInvariant : Prop :=
  ∀ s t : State, s.Inv → step s = .next t → t.Inv

/-- R70, R71, R74: the state that a stop leaves meets the invariant too. -/
def Obligations.StopsKeepTheInvariant : Prop :=
  ∀ s t : State, s.Inv → (∀ u : State, step s ≠ .next u) → stateAfter (step s) = some t → t.Inv

/-- R41, at the operand level: each mnemonic's word, and the refusal of an operand outside its range or of a wrong number of
operands; `.word` takes any one 24-bit value and refuses a larger one. The names of the refusals are the model's
(assumption 12). -/
def Obligations.AssemblerWordsAndRanges : Prop :=
  (∀ (a b : Byte),
    assembleCommand .parityUnit [a.toNat] = .ok (0b000#3 ++ 0#5 ++ 0#8 ++ a) ∧
    assembleCommand .syndromeDecoder [a.toNat] = .ok (0b001#3 ++ 0#5 ++ 0#8 ++ a) ∧
    assembleCommand .nibbleDecoder [a.toNat] = .ok (0b011#3 ++ 0#5 ++ 0#8 ++ a) ∧
    assembleCommand .byteEncoder [a.toNat] = .ok (0b100#3 ++ 0#5 ++ 0#8 ++ a) ∧
    assembleCommand .byteDecoder [a.toNat, b.toNat] = .ok (0b101#3 ++ 0#5 ++ b ++ a)) ∧
  (∀ v : Nibble, assembleCommand .nibbleEncoder [v.toNat] = .ok (0b010#3 ++ 0#5 ++ 0#12 ++ v)) ∧
  (∀ n : Nat, 15 < n → assembleCommand .nibbleEncoder [n] = .error .outOfRange) ∧
  (∀ (u : HammingUnit) (n : Nat), u ≠ .byteDecoder → 255 < n → assembleCommand u [n] = .error .outOfRange) ∧
  (∀ n m : Nat, 255 < n ∨ 255 < m → assembleCommand .byteDecoder [n, m] = .error .outOfRange) ∧
  (∀ (u : HammingUnit) (ops : List Nat), u ≠ .byteDecoder → ops.length ≠ 1 →
    assembleCommand u ops = .error .operandCount) ∧
  (∀ ops : List Nat, ops.length ≠ 2 → assembleCommand .byteDecoder ops = .error .operandCount) ∧
  (∀ ops : List Nat, ops.length ≠ 1 → assembleRaw ops = .error .operandCount) ∧
  (∀ n : Nat, 2 ^ 24 ≤ n → assembleRaw [n] = .error .outOfRange) ∧
  ∀ w : CommandWord, assembleRaw [w.toNat] = .ok w

/-- Lines read from their characters: R41's own example `DECB 42, 67` and raw word `.word 0x4000A0`, a binary literal, an
`ENCN` operand R41 refuses, and one line in a form that R41 does not show, lower-case mnemonic, no space after the comma,
and a comment after a space. The white space it accepts and the name of the refusal are the model's choice (assumption 12). -/
def Obligations.AssemblerReadsTheExampleLines : Prop :=
  assembleLine ['D', 'E', 'C', 'B', ' ', '4', '2', ',', ' ', '6', '7'] = .ok (some 0xA0432A) ∧
  assembleLine ['d', 'e', 'c', 'b', ' ', '0', 'x', '2', 'A', ',', '6', '7', ' ', ';', 'x'] = .ok (some 0xA0432A) ∧
  assembleLine ['P', 'A', 'R', ' ', '0', 'b', '1', '1', '0', '1', '0', '0', '1'] = .ok (some 0x000069) ∧
  assembleLine ['E', 'N', 'C', 'N', ' ', '1', '6'] = .error .outOfRange ∧
  assembleLine ['.', 'w', 'o', 'r', 'd', ' ', '0', 'x', '4', '0', '0', '0', 'A', '0'] = .ok (some 0x4000A0)
end

