-- ==== Sys2Proof/Config.lean ====
section
/-! DEFINITION. What an implementation fixes and the spec leaves open. Every width is fixed (00_scope.md R5) and stands in
the types of Word.lean, so one parameter is left. -/

namespace Sys2Proof

/-- `T_PD`, the propagation delay of each unit: an OPEN parameter that no rule of the model reads (00_scope.md R5,
70_reset_and_hazards.md R86, 92_eei_decisions.md D14). It has no body, so nothing can be proved of its value, and it has no
unit of time because the model contains no time (assumption 8). -/
opaque Config.propagationDelay : HammingUnit → Nat

end Sys2Proof
end

