-- ==== Sys2Proof/Laws/State.lean ====
section
/-! SUPPORT. One lemma per field per update of the state, and the cases of issuing a command. -/

namespace Sys2Proof.Machine

@[simp] theorem State.reset_pending : State.reset.pending = [] := rfl
@[simp] theorem State.reset_results : State.reset.results = [] := rfl
@[simp] theorem State.reset_faultRecord : State.reset.faultRecord = [] := rfl

@[simp] theorem State.appendResult_pending (s : State) (r : Result) :
    (s.appendResult r).pending = s.pending := rfl
@[simp] theorem State.appendResult_results (s : State) (r : Result) :
    (s.appendResult r).results = s.results ++ [r] := rfl
@[simp] theorem State.appendResult_faultRecord (s : State) (r : Result) :
    (s.appendResult r).faultRecord = s.faultRecord := rfl

@[simp] theorem State.recordFault_pending (s : State) (e : FaultEntry) :
    (s.recordFault e).pending = s.pending := rfl
@[simp] theorem State.recordFault_results (s : State) (e : FaultEntry) :
    (s.recordFault e).results = s.results := rfl
@[simp] theorem State.recordFault_faultRecord (s : State) (e : FaultEntry) :
    (s.recordFault e).faultRecord = s.faultRecord ++ [e] := rfl

@[simp] theorem State.present_pending (s : State) (w : CommandWord) :
    (s.present w).pending = w :: s.pending.tail := rfl
@[simp] theorem State.present_results (s : State) (w : CommandWord) :
    (s.present w).results = s.results := rfl
@[simp] theorem State.present_faultRecord (s : State) (w : CommandWord) :
    (s.present w).faultRecord = [] := rfl

@[simp] theorem State.load_pending (ws : List CommandWord) : (State.load ws).pending = ws := rfl
@[simp] theorem State.load_results (ws : List CommandWord) : (State.load ws).results = [] := rfl
@[simp] theorem State.load_faultRecord (ws : List CommandWord) : (State.load ws).faultRecord = [] := rfl

theorem State.issue_of_pending_nil (s : State) (h : s.pending = []) : s.issue = none := by
  simp [State.issue, h]

theorem State.issue_of_pending_cons (s : State) (w : CommandWord) (rest : List CommandWord)
    (h : s.pending = w :: rest) : s.issue = some (w, { s with pending := rest }) := by
  simp [State.issue, h]

end Sys2Proof.Machine
end

