-- ==== Sys2Proof/Laws/Ops.lean ====
section
/-! SUPPORT. What each shared operation answers, once: completing with a result, and stopping with a recorded outcome. -/

namespace Sys2Proof.Machine

/-- A completion answers the state with the result appended, and nothing else. -/
theorem complete_eq_next_iff (r : Result) (s t : State) :
    complete r s = .next t ↔ t = s.appendResult r := by
  simp only [complete, Host.Outcome.next.injEq]
  exact eq_comm

/-- A unit's command never faults and is never refused (R69). -/
theorem applyUnit_eq (u : UnitInputs) (s : State) :
    applyUnit u s = .next (s.appendResult (unitOutputs u)) := rfl

/-- A stop is never a next state (R74). -/
theorem stopWith_ne_next (e : FaultEntry) (s t : State) : stopWith e s ≠ .next t := by
  cases e <;> simp [stopWith]

/-- A stop faults exactly on a precondition violation, with its value and word and the recorded state (R70, R74). -/
theorem stopWith_fault_iff (e : FaultEntry) (s : State) (r : Fault) :
    stopWith e s = .fault r ↔
      ∃ value word, e = .preconditionViolation value word ∧
        r = .preconditionViolation value word (s.recordFault e) := by
  cases e with
  | preconditionViolation value word =>
    constructor
    · intro h
      simp only [stopWith, Host.Outcome.fault.injEq] at h
      exact ⟨value, word, rfl, h.symm⟩
    · rintro ⟨_, _, h, rfl⟩
      cases h
      rfl
  | illegalCommand word => simp [stopWith]

/-- A stop is refused exactly on an illegal command, with its word and the recorded state (R71, R74). -/
theorem stopWith_refused_iff (e : FaultEntry) (s : State) (r : Refusal) :
    stopWith e s = .refused r ↔
      ∃ word, e = .illegalCommand word ∧ r = .illegalCommand word (s.recordFault e) := by
  cases e with
  | preconditionViolation value word => simp [stopWith]
  | illegalCommand word =>
    constructor
    · intro h
      simp only [stopWith, Host.Outcome.refused.injEq] at h
      exact ⟨word, rfl, h.symm⟩
    · rintro ⟨_, h, rfl⟩
      cases h
      rfl

end Sys2Proof.Machine
end

