-- ==== Sys2Proof/Laws/Units.lean ====
section
/-! SUPPORT. One spec lemma per unit function: its output bit by bit, or in the rule's own closed form, so that no proof
unfolds a unit again. -/

namespace Sys2Proof.Machine

/-- The parity unit's eight output bits (R33, R43). -/
theorem computeParity_bits (c : Byte) :
    (computeParity c).getLsbD 6 = (c.getLsbD 4 ^^ c.getLsbD 2 ^^ c.getLsbD 0) ∧
    (computeParity c).getLsbD 5 = (c.getLsbD 4 ^^ c.getLsbD 1 ^^ c.getLsbD 0) ∧
    (computeParity c).getLsbD 3 = (c.getLsbD 2 ^^ c.getLsbD 1 ^^ c.getLsbD 0) ∧
    computeParity c &&& ~~~parityMask = 0 := by
  simp only [computeParity]
  generalize c.getLsbD 4 = d1
  generalize c.getLsbD 2 = d2
  generalize c.getLsbD 1 = d3
  generalize c.getLsbD 0 = d4
  revert d1 d2 d3 d4
  decide

/-- The syndrome is a 3-bit value, so `7 - S` never wraps (R48). -/
theorem syndrome_le (c : Byte) : syndrome c ≤ 7 := by
  have h3 := Bool.toNat_le ((parityMismatch c).getLsbD 3)
  have h5 := Bool.toNat_le ((parityMismatch c).getLsbD 5)
  have h6 := Bool.toNat_le ((parityMismatch c).getLsbD 6)
  simp only [syndrome]
  omega

/-- The error position as a number (R48 step 5). -/
theorem locateError_toNat (c : Byte) : (locateError c).toNat = 7 - syndrome c := by
  have := syndrome_le c
  simp only [locateError, BitVec.toNat_ofNat]
  omega

/-- An operand in range reaches the nibble encoder's port as it stands (R38, R53). -/
theorem nibbleOperand_of_le (value : Byte) (h : value.toNat ≤ 15) :
    nibbleOperand value = some (value.extractLsb' 0 4) := by
  simp only [nibbleOperand]
  rw [if_neg (by omega)]

/-- An operand above 15 reaches no port (R53). -/
theorem nibbleOperand_of_gt (value : Byte) (h : 15 < value.toNat) : nibbleOperand value = none := by
  simp only [nibbleOperand]
  rw [if_pos (by omega)]

end Sys2Proof.Machine
end

