-- ==== Sys2Proof/Laws/Commands.lean ====
section
/-! SUPPORT. What `exec` answers for each command, in one equation each; proofs cite these and unfold no meaning. -/

namespace Sys2Proof.Machine

@[simp] theorem exec_par (a : Byte) (s : State) :
    exec (.par a) s = .next (s.appendResult (.parity (computeParity a))) := rfl

@[simp] theorem exec_syn (a : Byte) (s : State) :
    exec (.syn a) s = .next (s.appendResult (.errorPosition (locateError a))) := rfl

@[simp] theorem exec_decn (a : Byte) (s : State) :
    exec (.decn a) s = .next (s.appendResult (.nibble (decodeNibble a))) := rfl

@[simp] theorem exec_encb (a : Byte) (s : State) :
    exec (.encb a) s =
      .next (s.appendResult (.codewordPair (encodeNibble (highNibble a)) (encodeNibble (lowNibble a)))) := rfl

@[simp] theorem exec_decb (a b : Byte) (s : State) :
    exec (.decb a b) s = .next (s.appendResult (.byte (decodeByte a b))) := rfl

/-- `ENCN` in range completes (R54). -/
theorem exec_encn_of_le (a : Byte) (s : State) (h : a.toNat ≤ 15) :
    exec (.encn a) s = .next (s.appendResult (.codeword (encodeNibble (a.extractLsb' 0 4)))) := by
  simp only [exec, execEncn, nibbleOperand_of_le a h]
  rfl

/-- `ENCN` out of range stops with a recorded precondition violation (R53, R70, R74). -/
theorem exec_encn_of_gt (a : Byte) (s : State) (h : 15 < a.toNat) :
    exec (.encn a) s = stopWith (.preconditionViolation a (encode (.encn a))) s := by
  simp only [exec, execEncn, nibbleOperand_of_gt a h]

/-- Every way `exec` can answer: it completes with one result that does not depend on the state, or it is an `ENCN` out of
range and stops (R8, R69, R70). -/
theorem exec_cases (i : Instr) :
    (∃ r, ∀ s, exec i s = .next (s.appendResult r)) ∨
      ∃ a, i = .encn a ∧ 15 < a.toNat ∧
        ∀ s, exec i s = stopWith (.preconditionViolation a (encode (.encn a))) s := by
  cases i with
  | par a => exact .inl ⟨_, fun s => exec_par a s⟩
  | syn a => exact .inl ⟨_, fun s => exec_syn a s⟩
  | encn a =>
    by_cases h : a.toNat ≤ 15
    · exact .inl ⟨_, fun s => exec_encn_of_le a s h⟩
    · exact .inr ⟨a, rfl, by omega, fun s => exec_encn_of_gt a s (by omega)⟩
  | decn a => exact .inl ⟨_, fun s => exec_decn a s⟩
  | encb a => exact .inl ⟨_, fun s => exec_encb a s⟩
  | decb a b => exact .inl ⟨_, fun s => exec_decb a b s⟩

end Sys2Proof.Machine
end

