-- ==== Sys2Proof/Laws/PerInstr.lean ====
section
/-! SUPPORT. Statements made per instruction: the fields of every command's word (30_encoding.md R36, R37, R38). -/

namespace Sys2Proof.Laws.EncodedFields

/-- The word of a command has the command's `op`, `rsv = 0`, and its operand fields as they stand. -/
def Statement (i : Instr) : Prop :=
  opField (encode i) = opOfUnit i.unit ∧ rsvField (encode i) = 0 ∧
    bField (encode i) = i.operandB ∧ aField (encode i) = i.operandA

/-- The four fields of a concatenation in R36's order are its parts. -/
theorem fields_of_append (op : BitVec 3) (b a : Byte) :
    opField (op ++ 0#5 ++ b ++ a) = op ∧ rsvField (op ++ 0#5 ++ b ++ a) = 0 ∧
      bField (op ++ 0#5 ++ b ++ a) = b ∧ aField (op ++ 0#5 ++ b ++ a) = a := by
  refine ⟨?_, ?_, ?_, ?_⟩ <;>
  · apply BitVec.eq_of_getLsbD_eq
    intro i hi
    simp only [opField, rsvField, bField, aField, BitVec.getLsbD_extractLsb', BitVec.getLsbD_append]
    interval_cases i <;> simp

theorem par (a : Byte) : Statement (.par a) := fields_of_append _ _ _
theorem syn (a : Byte) : Statement (.syn a) := fields_of_append _ _ _
theorem encn (a : Byte) : Statement (.encn a) := fields_of_append _ _ _
theorem decn (a : Byte) : Statement (.decn a) := fields_of_append _ _ _
theorem encb (a : Byte) : Statement (.encb a) := fields_of_append _ _ _
theorem decb (a b : Byte) : Statement (.decb a b) := fields_of_append _ _ _

end Sys2Proof.Laws.EncodedFields
end

