-- ==== Sys2Proof/Laws/Step.lean ====
section
/-! SUPPORT. What one step can do, said once: it stays stopped, is idle, refuses the issued word, or runs the command the word
decodes to. -/

namespace Sys2Proof.Machine

theorem step_of_stopped (s : State) (h : s.faultRecord ≠ []) : step s = .fault (.runStopped s) := by
  simp [step, issueStep, stayStopped, h]

theorem step_of_no_command (s : State) (hf : s.faultRecord = []) (hp : s.pending = []) :
    step s = .next s := by
  simp [step, issueStep, State.issue_of_pending_nil s hp, idle, hf]

theorem step_of_pending (s : State) (w : CommandWord) (rest : List CommandWord)
    (hf : s.faultRecord = []) (hp : s.pending = w :: rest) :
    step s = runWord w { s with pending := rest } := by
  simp [step, issueStep, State.issue_of_pending_cons s w rest hp, hf]

/-- A step that answers a next state was idle, or appended one command's result and consumed that command. -/
theorem step_next_cases (s t : State) (h : step s = .next t) :
    (s.faultRecord = [] ∧ s.pending = [] ∧ t = s) ∨
      ∃ w rest i r, s.faultRecord = [] ∧ s.pending = w :: rest ∧ decode w = .ok i ∧
        (∀ u, exec i u = .next (u.appendResult r)) ∧
        t = { s with pending := rest }.appendResult r := by
  by_cases hf : s.faultRecord = []
  · cases hp : s.pending with
    | nil =>
      rw [step_of_no_command s hf hp] at h
      exact .inl ⟨hf, rfl, (Host.Outcome.next.inj h).symm⟩
    | cons w rest =>
      rw [step_of_pending s w rest hf hp] at h
      right
      cases hd : decode w with
      | error e =>
        simp only [runWord, hd] at h
        exact absurd h (stopWith_ne_next _ _ _)
      | ok i =>
        simp only [runWord, hd] at h
        obtain ⟨r, hr⟩ | ⟨a, _, _, hr⟩ := exec_cases i
        · refine ⟨w, rest, i, r, hf, rfl, hd, hr, ?_⟩
          rw [hr] at h
          exact (Host.Outcome.next.inj h).symm
        · rw [hr] at h
          exact absurd h (stopWith_ne_next _ _ _)
  · rw [step_of_stopped s hf] at h
    cases h

end Sys2Proof.Machine
end

