-- ==== Sys2Proof/Tests/Slice0.lean ====
section
/-! SUPPORT. Small tests. Expected values come from spec/95_test_vectors.md and the rules' own examples, never from the model.
The witnesses at the end show, for each statement with hypotheses, a state and operands that meet them. -/

namespace Sys2Proof.Tests

open Sys2Proof.Machine

/-- The results of a next state. -/
def resultsOf : Host.Outcome State Fault Refusal → Option (List Result)
  | .next t => some t.results
  | _ => none

/-- The fault record a stop leaves. -/
def recordOf (o : Host.Outcome State Fault Refusal) : Option (List FaultEntry) :=
  match o with
  | .next _ => none
  | _ => (stateAfter o).map State.faultRecord

/-- A running state whose host issues `w` and then `0x000017`. -/
def issuing (w : CommandWord) : State :=
  { pending := [w, 0x000017], results := [.parity 0x68], faultRecord := [] }

/-- The command a word decodes to, if any. -/
def decoded (w : CommandWord) : Option Instr :=
  match decode w with
  | .ok i => some i
  | .error _ => none

/-- Why a word is rejected, if it is. -/
def rejected (w : CommandWord) : Option IllegalReason :=
  match decode w with
  | .ok _ => none
  | .error e => some e

/-- The word of a line, if it has one. -/
def assembled (line : List Char) : Option CommandWord :=
  match assembleLine line with
  | .ok w => w
  | .error _ => none

/-! The check of operand ranges refuses what it must (R41, R53). -/

theorem test_encn_16_is_ill_formed : (Instr.encn 16).wellFormed = false := by decide
theorem test_encn_15_is_well_formed : (Instr.encn 15).wellFormed = true := by decide

/-! Decoding, each word written out bit by bit from R36 and R37. -/

theorem test_decode_par : decoded 0b000_00000_00000000_01101001 = some (.par 0x69) := by decide
theorem test_decode_syn : decoded 0b001_00000_00000000_01111001 = some (.syn 121) := by decide
theorem test_decode_encn : decoded 0b010_00000_00000000_00001001 = some (.encn 9) := by decide
theorem test_decode_encn_wide : decoded 0b010_00000_00000000_10100000 = some (.encn 0xA0) := by decide
theorem test_decode_decn : decoded 0b011_00000_00000000_01011001 = some (.decn 89) := by decide
theorem test_decode_encb : decoded 0b100_00000_00000000_00100011 = some (.encb 35) := by decide
theorem test_decode_decb : decoded 0b101_00000_01000011_00101010 = some (.decb 42 67) := by decide
/-- 95 §2.7, the words refused by each clause of R39. -/
theorem test_reject_reserved_op : rejected 0xE012FF = some .reservedOp := by decide
theorem test_reject_reserved_bits : rejected 0x4100A0 = some .reservedBits := by decide
theorem test_reject_reserved_bits_decb : rejected 0xBF0000 = some .reservedBits := by decide
theorem test_reject_stray_operand : rejected 0x4001A0 = some .strayOperand := by decide
theorem test_encode_decb : encode (.decb 42 67) = 0xA0432A := by decide
theorem test_table_word_decb : decodeTableWord 24 0xA00000 = some (.decb 0 0) := by decide

/-! One command each (95 §2.1 to §2.6): the corner that a swapped bit would show. -/

theorem test_par_all_ones : resultsOf (exec (.par 0xFF) State.reset) = some [.parity 0x68] := by decide
theorem test_par_d1_d2_d4 : resultsOf (exec (.par 0x15) State.reset) = some [.parity 0x40] := by decide
theorem test_syn_bit_four : resultsOf (exec (.syn 121) State.reset) = some [.errorPosition 4] := by decide
theorem test_syn_three_flips_undetected :
    resultsOf (exec (.syn 22) State.reset) = some [.errorPosition 7] := by decide
/-- C1: 25, not the source's 112. -/
theorem test_encn_nine : resultsOf (exec (.encn 9) State.reset) = some [.codeword 25] := by decide
theorem test_encn_a0_faults :
    recordOf (exec (.encn 0xA0) State.reset) = some [.preconditionViolation 0xA0 0x4000A0] := by decide
theorem test_decn_corrects : resultsOf (exec (.decn 89) State.reset) = some [.nibble 9] := by decide
theorem test_decn_bit_seven : resultsOf (exec (.decn 200) State.reset) = some [.nibble 4] := by decide
theorem test_encb_9c : resultsOf (exec (.encb 0x9C) State.reset) = some [.codewordPair 25 60] := by decide
theorem test_decb_two_flips_in_hi : resultsOf (exec (.decb 74 67) State.reset) = some [.byte 163] := by decide
theorem test_decb_one_flip_each : resultsOf (exec (.decb 58 66) State.reset) = some [.byte 35] := by decide

/-! One step each (95 §2.7, P4, P5). -/

theorem test_step_decb : resultsOf (step (issuing 0xA0432A)) = some [.parity 0x68, .byte 35] := by decide
theorem test_step_refuses_before_operand_check :
    recordOf (step (issuing 0x4001A0)) = some [.illegalCommand 0x4001A0] := by decide
theorem test_step_faults :
    recordOf (step (issuing 0x4000A0)) = some [.preconditionViolation 0xA0 0x4000A0] := by decide
theorem test_stop_keeps_results_and_position :
    ((stateAfter (step (issuing 0xC00000))).map fun t => (t.results, t.commandIndex)) =
      some ([.parity 0x68], 1) := by decide
theorem test_fetch_word_runs :
    resultsOf (step (State.reset.withFetchWord 24 0x800023)) = some [.codewordPair 42 67] := by decide

/-! The channel (R32) and the assembler (R41). -/

theorem test_classes : classify 0x69 0xE9 = .noError ∧ classify 0x69 0x79 = .corrupted ∧
    classify 0x69 0x6A = .ambiguous := by decide
theorem test_asm_decb : assembled ['D', 'E', 'C', 'B', ' ', '4', '2', ',', ' ', '6', '7'] = some 0xA0432A := by decide
theorem test_asm_raw_word :
    assembled ['.', 'w', 'o', 'r', 'd', ' ', '0', 'x', '4', '0', '0', '0', 'A', '0'] = some 0x4000A0 := by decide
theorem test_asm_two_lines :
    (match assembleProgram ['e', 'n', 'c', 'n', ' ', '9', '\n', ';', 'x', '\n', 'P', 'A', 'R', ' ', '0', 'b', '1'] with
      | .ok ws => ws
      | .error _ => []) = [0x400009, 0x000001] := by decide

/-! Witnesses of the statements' hypotheses. -/

theorem witness_same_data_bits : (0x17#8).getLsbD 4 = (0xFF#8).getLsbD 4 ∧ (0x17#8).getLsbD 2 = (0xFF#8).getLsbD 2 ∧
    (0x17#8).getLsbD 1 = (0xFF#8).getLsbD 1 ∧ (0x17#8).getLsbD 0 = (0xFF#8).getLsbD 0 := by decide
theorem witness_par_table : 0xFF#8 &&& 0x17 = dataBits 15 ∧ 0xE8#8 &&& 0x17 = dataBits 0 := by decide

/-- The three mismatch bits of a word, for the eight rows of the syndrome table. -/
def mismatchBits (a : Byte) : Bool × Bool × Bool :=
  (a.getLsbD 3 ^^ a.getLsbD 2 ^^ a.getLsbD 1 ^^ a.getLsbD 0, a.getLsbD 5 ^^ a.getLsbD 4 ^^ a.getLsbD 1 ^^ a.getLsbD 0,
    a.getLsbD 6 ^^ a.getLsbD 4 ^^ a.getLsbD 2 ^^ a.getLsbD 0)

theorem witness_syn_table : mismatchBits 0x00 = (false, false, false) ∧ mismatchBits 0x40 = (false, false, true) ∧
    mismatchBits 0x20 = (false, true, false) ∧ mismatchBits 0x10 = (false, true, true) ∧
    mismatchBits 0x08 = (true, false, false) ∧ mismatchBits 0x04 = (true, false, true) ∧
    mismatchBits 0x02 = (true, true, false) ∧ mismatchBits 0x01 = (true, true, true) := by decide
theorem witness_valid_and_bit : valid 0x7F = true ∧ valid 0x00 = true ∧ 6 < 7 ∧ 0 < 7 ∧ (0 : Nat) ≠ 6 := by decide
theorem witness_three_flips : (0x00 : Codeword) ∈ codewordTable ∧ flippedBits 0x07 = 3 ∧ locateError (0x00 ^^^ 0x07) ≠ 7 := by
  decide
theorem witness_three_flips_top : (0x7F : Codeword) ∈ codewordTable ∧ flippedBits 0xE0 ≠ 3 ∧ flippedBits 0xF0 = 3 ∧
    locateError (0x7F ^^^ 0xF0) = 7 ∧ flippedBits 0xE8 = 3 ∧ locateError (0x7F ^^^ 0xE8) ≠ 7 := by decide
theorem witness_encn_ranges : (15#8).toNat ≤ 15 ∧ 15 < (16#8).toNat ∧ 15 < (255#8).toNat := by decide
theorem witness_encn_fault : ∃ r, exec (.encn 16) State.reset = .fault r := ⟨_, rfl⟩
theorem witness_codeword_in_table : (0x7F : Codeword) ∈ codewordTable := by decide
theorem witness_codeword_result : ∃ t, exec (.encn 9) State.reset = .next t ∧
    t.results = State.reset.results ++ [.codeword 25] := ⟨_, rfl, by decide⟩
theorem witness_pair_result : ∃ t, exec (.encb 0x23) State.reset = .next t ∧
    t.results = State.reset.results ++ [.codewordPair 42 67] := ⟨_, rfl, by decide⟩
theorem witness_well_formed_each : (Instr.par 0xFF).wellFormed = true ∧ (Instr.syn 0xFF).wellFormed = true ∧
    (Instr.encn 15).wellFormed = true ∧ (Instr.decn 0xFF).wellFormed = true ∧ (Instr.encb 0xFF).wellFormed = true ∧
    (Instr.decb 0xFF 0xFF).wellFormed = true := by decide
theorem witness_exec_next : ∃ t, exec (.par 1) State.reset = .next t := ⟨_, rfl⟩
theorem witness_legal_word : illegalWord 0xA0FFFF = false ∧ illegalWord 0x4000FF = false := by decide
theorem witness_words_of_each_outcome : illegalWord 0xC00000 = true ∧ preconditionWord 0x400010 = true ∧
    completingWord 0x40000F = true := by decide
theorem witness_row_matches : (OpcodeRow.mk .byteDecoder 0xA00000 0xFF0000) ∈ opcodeTable ∧
    (OpcodeRow.mk .byteDecoder 0xA00000 0xFF0000).matches 0xA0FFFF = true := by decide
theorem witness_decodes : decode 0x800023 = .ok (.encb 0x23) := rfl
theorem witness_stop : (∃ t, stateAfter (step (issuing 0xC00000)) = some t) ∧
    ∀ u, step (issuing 0xC00000) ≠ .next u :=
  ⟨⟨_, rfl⟩, fun u h => by rw [show step (issuing 0xC00000) = .refused _ from rfl] at h; cases h⟩
theorem witness_fault_stop : (∃ t, stateAfter (step (issuing 0x4000A0)) = some t) ∧
    ∀ u, step (issuing 0x4000A0) ≠ .next u :=
  ⟨⟨_, rfl⟩, fun u h => by rw [show step (issuing 0x4000A0) = .fault _ from rfl] at h; cases h⟩
theorem witness_stopped : ((issuing 0).recordFault (.illegalCommand 0xC00000)).faultRecord ≠ [] := by decide
theorem witness_no_command : State.reset.pending = [] ∧ State.reset.faultRecord = [] := by decide
theorem witness_step_next : ∃ t, step (issuing 0x600059) = .next t := ⟨_, rfl⟩
theorem witness_step_idle : step State.reset = .next State.reset := rfl
theorem witness_run : (∀ c ∈ [Instr.par 1, Instr.encn 15], c.wellFormed = true) ∧ completingWord 0x4000A0 = false ∧
    completingWord 0xC00000 = false ∧ [Instr.par 1, Instr.encn 15].length < 3 := by decide
theorem witness_invariant : (issuing 0x600059).Inv := ⟨by decide, by decide, by decide⟩
theorem witness_invariant_before_stop : (issuing 0xC00000).Inv := ⟨by decide, by decide, by decide⟩
theorem witness_invariant_stopped :
    ((issuing 0).recordFault (.preconditionViolation 16 0x400010)).Inv := ⟨by decide, by decide, by decide⟩
theorem witness_asm_ranges : 15 < 16 ∧ HammingUnit.parityUnit ≠ .byteDecoder ∧ 255 < 256 ∧ (255 < 0 ∨ 255 < 256) := by decide
theorem witness_asm_counts : ([] : List Nat).length ≠ 1 ∧ [1, 2].length ≠ 1 ∧ [1].length ≠ 2 ∧ [1, 2, 3].length ≠ 2 ∧
    2 ^ 24 ≤ 16777216 := by decide

end Sys2Proof.Tests
end

namespace Sys2Proof.Machine

/-- A command that completes in one state completes in every state, always with the same result: the only other way to
answer is a stop, which is no next state (R8, R70). -/
theorem exec_next_uniform {i : Instr} {s s' : State} (h : exec i s = .next s') :
    ∃ r, ∀ u, exec i u = .next (u.appendResult r) := by
  obtain hcompletes | ⟨a, _, _, hstops⟩ := exec_cases i
  · exact hcompletes
  · rw [hstops] at h
    exact absurd h (stopWith_ne_next _ _ _)

/-- Settles O26: the result `exec_next_uniform` gives is the one appended in `s` and in `t`. -/
theorem resultsDependOnlyOnOwnOperands : Obligations.ResultsDependOnlyOnOwnOperands := by
  intro i s s' t h
  obtain ⟨r, hr⟩ := exec_next_uniform h
  have hs' : s.appendResult r = s' := Host.Outcome.next.inj ((hr s).symm.trans h)
  exact ⟨r, hs'.symm, hr t⟩

end Sys2Proof.Machine

section
/-! The command word by its four fields (30_encoding.md R36): a word is the concatenation of its fields, so two words are equal
exactly when their fields are, and a mask acts on each field by itself. -/

namespace Sys2Proof

theorem word_eq_append_fields (w : CommandWord) :
    w = opField w ++ rsvField w ++ bField w ++ aField w := by
  simp only [opField, rsvField, bField, aField, BitVec.extractLsb'_append_extractLsb'_eq_extractLsb',
    BitVec.extractLsb'_eq_self]

theorem word_eq_iff_fields (w v : CommandWord) :
    w = v ↔ opField w = opField v ∧ rsvField w = rsvField v ∧ bField w = bField v ∧ aField w = aField v := by
  constructor
  · rintro rfl
    exact ⟨rfl, rfl, rfl, rfl⟩
  · rintro ⟨hop, hrsv, hb, ha⟩
    rw [word_eq_append_fields w, word_eq_append_fields v, hop, hrsv, hb, ha]

theorem opField_and (w m : CommandWord) : opField (w &&& m) = opField w &&& opField m :=
  BitVec.extractLsb'_and

theorem rsvField_and (w m : CommandWord) : rsvField (w &&& m) = rsvField w &&& rsvField m :=
  BitVec.extractLsb'_and

theorem bField_and (w m : CommandWord) : bField (w &&& m) = bField w &&& bField m :=
  BitVec.extractLsb'_and

theorem aField_and (w m : CommandWord) : aField (w &&& m) = aField w &&& aField m :=
  BitVec.extractLsb'_and

/-- The fields of every command's word (R36 to R38). -/
theorem encode_fields (i : Instr) : Laws.EncodedFields.Statement i :=
  Laws.EncodedFields.fields_of_append _ _ _

end Sys2Proof
end

section
/-! The operation map (R37) and the decoder (R39), each characterised once. -/

namespace Sys2Proof

/-- The two readings of the operation map agree (R37). -/
theorem unitOfOp_eq_some_iff (op : BitVec 3) (u : HammingUnit) : unitOfOp op = some u ↔ op = opOfUnit u := by
  revert op
  cases u <;> decide

/-- Only `110` and `111` select no unit (R37, R39). -/
theorem unitOfOp_eq_none_iff (op : BitVec 3) : unitOfOp op = none ↔ op = 0b110 ∨ op = 0b111 := by
  revert op
  decide

theorem opOfUnit_eq_decb_iff (u : HammingUnit) : opOfUnit u = 0b101 ↔ u = .byteDecoder := by
  cases u <;> decide

@[simp] theorem instrOf_unit (u : HammingUnit) (a b : Byte) : (instrOf u a b).unit = u := by
  cases u <;> rfl

@[simp] theorem instrOf_operandA (u : HammingUnit) (a b : Byte) : (instrOf u a b).operandA = a := by
  cases u <;> rfl

theorem instrOf_operandB (u : HammingUnit) (a b : Byte) (h : u = .byteDecoder ∨ b = 0) :
    (instrOf u a b).operandB = b := by
  obtain rfl | rfl := h
  · rfl
  · cases u <;> rfl

theorem instrOf_operands (i : Instr) : instrOf i.unit i.operandA i.operandB = i := by
  cases i <;> rfl

theorem operandB_eq_zero_of_unit_ne (i : Instr) : i.unit = .byteDecoder ∨ i.operandB = 0 := by
  cases i <;> simp [Instr.unit, Instr.operandB]

/-- `w` has the shape of a command of unit `u`: the unit's `op`, `rsv = 0`, and `B = 0` unless the unit is the byte decoder,
the only one with a second operand (R36 to R39). -/
def IsWordOf (u : HammingUnit) (w : CommandWord) : Prop :=
  opField w = opOfUnit u ∧ rsvField w = 0 ∧ (u = .byteDecoder ∨ bField w = 0)

theorem isWordOf_encode (i : Instr) : IsWordOf i.unit (encode i) := by
  obtain ⟨hop, hrsv, hb, -⟩ := encode_fields i
  exact ⟨hop, hrsv, hb ▸ operandB_eq_zero_of_unit_ne i⟩

theorem decode_of_isWordOf {u : HammingUnit} {w : CommandWord} (h : IsWordOf u w) :
    decode w = .ok (instrOf u (aField w) (bField w)) := by
  obtain ⟨hop, hrsv, hb⟩ := h
  have hunit : unitOfOp (opField w) = some u := (unitOfOp_eq_some_iff _ _).2 hop
  have hstray : ¬(u ≠ .byteDecoder ∧ bField w ≠ 0) := fun ⟨hu, hb'⟩ => hb.elim hu hb'
  simp only [decode, hunit, hrsv, hstray, ne_eq, not_true_eq_false, if_false]

/-- The decoder accepts exactly the words of some unit's shape, and reads that unit's command with the operand fields as they
stand. -/
theorem decode_eq_ok_iff (w : CommandWord) (i : Instr) :
    decode w = .ok i ↔ ∃ u, IsWordOf u w ∧ i = instrOf u (aField w) (bField w) := by
  constructor
  · intro h
    simp only [decode] at h
    split at h
    · cases h
    · next u hunit =>
      split_ifs at h with hrsv hstray
      refine ⟨u, ⟨(unitOfOp_eq_some_iff _ _).1 hunit, not_not.1 hrsv, ?_⟩, (Except.ok.inj h).symm⟩
      by_contra hne
      exact hstray (not_or.1 hne)
  · rintro ⟨u, hw, rfl⟩
    exact decode_of_isWordOf hw

theorem decode_encode (i : Instr) : decode (encode i) = .ok i := by
  obtain ⟨-, -, hb, ha⟩ := encode_fields i
  rw [decode_of_isWordOf (isWordOf_encode i), ha, hb, instrOf_operands]

theorem encode_of_isWordOf {u : HammingUnit} {w : CommandWord} (h : IsWordOf u w) :
    encode (instrOf u (aField w) (bField w)) = w := by
  obtain ⟨hop, hrsv, hb⟩ := h
  obtain ⟨eop, ersv, eb, ea⟩ := encode_fields (instrOf u (aField w) (bField w))
  rw [word_eq_iff_fields, eop, ersv, eb, ea, instrOf_unit, instrOf_operandA, instrOf_operandB _ _ _ hb]
  exact ⟨hop.symm, hrsv.symm, rfl, rfl⟩

/-- Encoding and decoding are inverse to each other. -/
theorem decode_eq_ok_iff_encode_eq (w : CommandWord) (i : Instr) : decode w = .ok i ↔ encode i = w := by
  constructor
  · intro h
    obtain ⟨u, hw, rfl⟩ := (decode_eq_ok_iff w i).1 h
    exact encode_of_isWordOf hw
  · rintro rfl
    exact decode_encode i

theorem decodes_to_unit_iff (w : CommandWord) (u : HammingUnit) :
    (∃ i, decode w = .ok i ∧ i.unit = u) ↔ IsWordOf u w := by
  constructor
  · rintro ⟨i, hd, rfl⟩
    rw [← (decode_eq_ok_iff_encode_eq w i).1 hd]
    exact isWordOf_encode i
  · intro h
    exact ⟨_, decode_of_isWordOf h, instrOf_unit u _ _⟩

/-- A word is legal by R39 exactly when it has the shape of some unit's command. -/
theorem illegalWord_eq_false_iff (w : CommandWord) :
    Machine.illegalWord w = false ↔ ∃ u, IsWordOf u w := by
  simp only [Machine.illegalWord, decide_eq_false_iff_not, ← or_assoc, ← unitOfOp_eq_none_iff]
  constructor
  · intro h
    cases hunit : unitOfOp (opField w) with
    | none => exact absurd (.inl (.inl hunit)) h
    | some u =>
      have hop := (unitOfOp_eq_some_iff _ _).1 hunit
      refine ⟨u, hop, ?_, ?_⟩
      · by_contra hrsv
        exact h (.inl (.inr hrsv))
      · by_contra hne
        obtain ⟨hu, hb⟩ := not_or.1 hne
        exact h (.inr ⟨hop ▸ mt (opOfUnit_eq_decb_iff u).1 hu, hb⟩)
  · rintro ⟨u, hop, hrsv, hb⟩ ((hnone | hrsv') | ⟨hop', hb'⟩)
    · rw [(unitOfOp_eq_some_iff _ _).2 hop] at hnone
      cases hnone
    · exact hrsv' hrsv
    · exact hb.elim (mt (opOfUnit_eq_decb_iff u).2 (hop ▸ hop')) hb'

/-- The decoder accepts exactly the words that R39 does not reject. -/
theorem illegalWord_eq_false_iff_decodes (w : CommandWord) :
    Machine.illegalWord w = false ↔ ∃ i, decode w = .ok i := by
  rw [illegalWord_eq_false_iff]
  constructor
  · rintro ⟨u, hw⟩
    exact ⟨_, decode_of_isWordOf hw⟩
  · rintro ⟨i, hd⟩
    exact ⟨i.unit, (decodes_to_unit_iff w i.unit).1 ⟨i, hd, rfl⟩⟩

/-- Settles O28: `decode_encode`, from the fields of the command's word. -/
theorem decodeOfEncodeIsTheCommand : Obligations.DecodeOfEncodeIsTheCommand :=
  decode_encode

/-- Settles O29: a legal word decodes, and decoding and encoding are inverse, so the command is the only one with that word. -/
theorem everyLegalWordEncodesOneCommand : Obligations.EveryLegalWordEncodesOneCommand := by
  intro w hlegal
  obtain ⟨i, hd⟩ := (illegalWord_eq_false_iff_decodes w).1 hlegal
  refine ⟨i, hd, (decode_eq_ok_iff_encode_eq w i).1 hd, fun j hj => ?_⟩
  have hd' : decode w = .ok j := (decode_eq_ok_iff_encode_eq w j).2 hj
  exact Except.ok.inj (hd'.symm.trans hd)

end Sys2Proof
end

section
/-! Which results a completing command can append (30_encoding.md R31, R33; 42_nibble_codec.md R55; 43_byte_codec.md R65), and
that every step keeps the invariant. -/

namespace Sys2Proof.Machine

/-- The nibble encoder's output is a codeword the block may produce, for each of the 16 nibbles (R31, R55). -/
theorem producedCodeword_encodeNibble (n : Nibble) : producedCodeword (encodeNibble n) = true := by
  revert n
  decide

theorem unitOutputs_producible (u : UnitInputs) : (unitOutputs u).producible = true := by
  cases u with
  | parityUnit c =>
    obtain ⟨-, -, -, hmask⟩ := computeParity_bits c
    exact beq_iff_eq.2 hmask
  | syndromeDecoder c => rfl
  | nibbleEncoder n => exact producedCodeword_encodeNibble n
  | nibbleDecoder c => rfl
  | byteEncoder b =>
    exact Bool.and_eq_true_iff.2 ⟨producedCodeword_encodeNibble _, producedCodeword_encodeNibble _⟩
  | byteDecoder h l => rfl

/-- A command that completes shows some unit's outputs (R38, R85). -/
theorem exec_next_unitOutputs {i : Instr} {s t : State} (h : exec i s = .next t) :
    ∃ u, t = s.appendResult (unitOutputs u) := by
  cases i with
  | par a => exact ⟨.parityUnit a, (Host.Outcome.next.inj h).symm⟩
  | syn a => exact ⟨.syndromeDecoder a, (Host.Outcome.next.inj h).symm⟩
  | encn a =>
    by_cases ha : a.toNat ≤ 15
    · rw [exec_encn_of_le a s ha] at h
      exact ⟨.nibbleEncoder (a.extractLsb' 0 4), (Host.Outcome.next.inj h).symm⟩
    · rw [exec_encn_of_gt a s (by omega)] at h
      exact absurd h (stopWith_ne_next _ _ _)
  | decn a => exact ⟨.nibbleDecoder a, (Host.Outcome.next.inj h).symm⟩
  | encb a => exact ⟨.byteEncoder a, (Host.Outcome.next.inj h).symm⟩
  | decb a b => exact ⟨.byteDecoder a b, (Host.Outcome.next.inj h).symm⟩

/-- The one result a completing command appends is a producible one. -/
theorem exec_result_producible {i : Instr} {s t : State} {r : Result} (h : exec i s = .next t)
    (hr : t.results = s.results ++ [r]) : r.producible = true := by
  obtain ⟨u, rfl⟩ := exec_next_unitOutputs h
  have hru : unitOutputs u = r := by simpa using hr
  exact hru ▸ unitOutputs_producible u

theorem State.Inv.appendResult {s : State} {r : Result} (hs : s.Inv) (hr : r.producible = true) :
    (s.appendResult r).Inv := by
  obtain ⟨hresults, hlength, hgenuine⟩ := hs
  refine ⟨fun x hx => ?_, hlength, hgenuine⟩
  obtain hx | hx := List.mem_append.1 hx
  · exact hresults x hx
  · exact List.mem_singleton.1 hx ▸ hr

/-- The invariant does not speak of the host's pending commands. -/
theorem State.inv_setPending_iff (s : State) (ws : List CommandWord) : ({ s with pending := ws } : State).Inv ↔ s.Inv :=
  Iff.rfl

/-- Settles O41: a step that goes on is idle, or appends the producible result of one command. -/
theorem stepKeepsTheInvariant : Obligations.StepKeepsTheInvariant := by
  intro s t hs h
  obtain ⟨-, -, rfl⟩ | ⟨w, rest, i, r, -, -, -, hexec, rfl⟩ := step_next_cases s t h
  · exact hs
  · exact ((s.inv_setPending_iff rest).2 hs).appendResult (exec_result_producible (hexec s) rfl)

end Sys2Proof.Machine
end

section
/-! Bit 7 of a codeword input (30_encoding.md R31): flipping it changes no bit that a unit's output reads. -/

namespace Sys2Proof.Machine

theorem producedCodeword_bit_seven {c : Codeword} (h : producedCodeword c = true) : c.getLsbD 7 = false := by
  obtain ⟨-, h7⟩ := Bool.and_eq_true_iff.1 h
  simpa using h7

/-- Flipping bit 7 leaves the seven code bits as they are. -/
theorem getLsbD_xor_bit_seven (c : Byte) {k : Nat} (hk : k < 7) : (c ^^^ 0x80#8).getLsbD k = c.getLsbD k := by
  have hbit : (0x80#8).getLsbD k = false := by interval_cases k <;> rfl
  rw [BitVec.getLsbD_xor, hbit, Bool.xor_false]

theorem xor_bit_seven_comm (c d : Byte) : c ^^^ 0x80#8 ^^^ d = c ^^^ d ^^^ 0x80#8 := by
  rw [BitVec.xor_assoc, BitVec.xor_comm 0x80#8 d, BitVec.xor_assoc]

theorem computeParity_xor_bit_seven (c : Byte) : computeParity (c ^^^ 0x80#8) = computeParity c := by
  simp only [computeParity, getLsbD_xor_bit_seven c, Nat.reduceLT]

theorem computeParity_bit_seven (c : Byte) : (computeParity c).getLsbD 7 = false := by
  obtain ⟨-, -, -, hmask⟩ := computeParity_bits c
  have h7 := congrArg (BitVec.getLsbD · 7) hmask
  simpa [parityMask] using h7

theorem locateError_xor_bit_seven (c : Byte) : locateError (c ^^^ 0x80#8) = locateError c := by
  have hmismatch : parityMismatch (c ^^^ 0x80#8) = parityMismatch c ^^^ 0x80#8 := by
    rw [parityMismatch, computeParity_xor_bit_seven, xor_bit_seven_comm, parityMismatch]
  simp only [locateError, syndrome, hmismatch, getLsbD_xor_bit_seven, Nat.reduceLT]

/-! The steps of `DECN` (R58) carry a flip of bit 7 along unchanged, and its last step drops the bit. -/

theorem correct_xor_bit_seven (c : Byte) (p : Position) : correct (c ^^^ 0x80#8) p = correct c p ^^^ 0x80#8 := by
  unfold correct
  split_ifs
  · exact xor_bit_seven_comm _ _
  · rfl

theorem strip_xor_bit_seven (c p : Byte) (hp : p.getLsbD 7 = false) :
    (c ^^^ 0x80#8) &&& ~~~p = (c &&& ~~~p) ^^^ 0x80#8 := by
  apply BitVec.eq_of_getLsbD_eq
  intro k hk
  obtain hk | rfl : k < 7 ∨ k = 7 := by omega
  · simp only [BitVec.getLsbD_and, getLsbD_xor_bit_seven _ hk]
  · have hp7 : p[7] = false := by simpa using hp
    simp [hp7]

theorem unrelocate_xor_bit_seven (c : Byte) : unrelocate (c ^^^ 0x80#8) = unrelocate c ^^^ 0x80#8 := by
  have hclearSet : ((c ^^^ 0x80#8) &&& ~~~0x10#8) ||| 0x08#8 = ((c &&& ~~~0x10#8) ||| 0x08#8) ^^^ 0x80#8 := by
    rw [strip_xor_bit_seven c 0x10#8 rfl]
    apply BitVec.eq_of_getLsbD_eq
    intro k hk
    obtain hk | rfl : k < 7 ∨ k = 7 := by omega
    · simp only [BitVec.getLsbD_or, getLsbD_xor_bit_seven _ hk]
    · simp
  unfold unrelocate
  rw [getLsbD_xor_bit_seven c (by decide)]
  split_ifs
  · exact hclearSet
  · rfl

theorem decodeNibble_xor_bit_seven (c : Byte) : decodeNibble (c ^^^ 0x80#8) = decodeNibble c := by
  have hdrop : ∀ d : Byte, (d ^^^ 0x80#8).extractLsb' 0 4 = d.extractLsb' 0 4 := by
    intro d
    rw [BitVec.extractLsb'_xor]
    exact BitVec.xor_zero
  simp only [decodeNibble, locateError_xor_bit_seven, correct_xor_bit_seven, computeParity_xor_bit_seven]
  rw [strip_xor_bit_seven _ _ (computeParity_bit_seven _), unrelocate_xor_bit_seven, hdrop]

/-- Settles O23: an appended codeword is a produced one, so its bit 7 is 0; and no unit's function reads bit 7 of a codeword
input. -/
theorem bitSevenIsZeroOutAndIgnoredIn : Obligations.BitSevenIsZeroOutAndIgnoredIn := by
  refine ⟨fun i s t c h hr => ?_, fun i s t hi lo h hr => ?_, fun a b s => ?_⟩
  · exact producedCodeword_bit_seven (exec_result_producible h hr)
  · obtain ⟨hhi, hlo⟩ := Bool.and_eq_true_iff.1 (exec_result_producible h hr)
    exact ⟨producedCodeword_bit_seven hhi, producedCodeword_bit_seven hlo⟩
  · simp only [BitVec.ofNat_eq_ofNat, exec_par, exec_syn, exec_decn, exec_decb, decodeByte, computeParity_xor_bit_seven,
      locateError_xor_bit_seven, decodeNibble_xor_bit_seven, and_self]

end Sys2Proof.Machine
end

section
/-! The three kinds of command word (30_encoding.md R39; 60_exceptions.md R70, R71, R73), each with what issuing it answers. -/

namespace Sys2Proof.Machine

theorem runWord_of_decode {w : CommandWord} {i : Instr} (hd : decode w = .ok i) (s : State) :
    runWord w s = exec i s := by
  simp only [runWord, hd]

/-- A word R39 rejects is refused (R71). -/
theorem runWord_of_illegal {w : CommandWord} (h : illegalWord w = true) (s : State) :
    runWord w s = stopWith (.illegalCommand w) s := by
  cases hd : decode w with
  | error e => simp only [runWord, hd]
  | ok i =>
    have hlegal := (illegalWord_eq_false_iff_decodes w).2 ⟨i, hd⟩
    rw [h] at hlegal
    cases hlegal

/-- `ENCN` is out of range exactly when the high half of field `A` is not 0 (R53, R70). -/
theorem highNibble_ne_zero_iff (a : Byte) : highNibble a ≠ 0 ↔ 15 < a.toNat := by
  have hhigh : (highNibble a).toNat = a.toNat / 16 := by
    rw [highNibble, BitVec.extractLsb'_toNat, Nat.shiftRight_eq_div_pow]
    omega
  have hzero : highNibble a = 0 ↔ (highNibble a).toNat = 0 := BitVec.toNat_inj.symm
  rw [Ne, hzero, hhigh]
  omega

/-- The words of R70's shape are those that decode to an `ENCN` out of range. -/
theorem preconditionWord_iff (w : CommandWord) :
    preconditionWord w = true ↔ decode w = .ok (.encn (aField w)) ∧ 15 < (aField w).toNat := by
  rw [← highNibble_ne_zero_iff]
  simp only [preconditionWord, decide_eq_true_eq]
  constructor
  · rintro ⟨hop, hrsv, hb, hhigh⟩
    have hword : IsWordOf .nibbleEncoder w := ⟨hop, hrsv, .inr hb⟩
    exact ⟨decode_of_isWordOf hword, hhigh⟩
  · rintro ⟨hd, hhigh⟩
    obtain ⟨hop, hrsv, hb⟩ := (decodes_to_unit_iff w .nibbleEncoder).1 ⟨_, hd, rfl⟩
    exact ⟨hop, hrsv, hb.resolve_left (by decide), hhigh⟩

/-- A word of R70's shape stops with its own operand and the issued word (R70). -/
theorem runWord_of_precondition {w : CommandWord} (h : preconditionWord w = true) (s : State) :
    runWord w s = stopWith (.preconditionViolation (aField w) w) s := by
  obtain ⟨hd, hrange⟩ := (preconditionWord_iff w).1 h
  rw [runWord_of_decode hd, exec_encn_of_gt _ _ hrange, (decode_eq_ok_iff_encode_eq w _).1 hd]

/-- Every other word completes, with a result that does not depend on the state (R69). -/
theorem runWord_of_completing {w : CommandWord} (h : completingWord w = true) :
    ∃ r, ∀ s, runWord w s = .next (s.appendResult r) := by
  obtain ⟨hlegal, hpre⟩ := Bool.and_eq_true_iff.1 h
  obtain ⟨i, hd⟩ := (illegalWord_eq_false_iff_decodes w).1 (by simpa using hlegal)
  obtain ⟨r, hr⟩ | ⟨a, rfl, ha, -⟩ := exec_cases i
  · exact ⟨r, fun s => (runWord_of_decode hd s).trans (hr s)⟩
  · obtain ⟨-, -, -, haField⟩ := encode_fields (.encn a)
    rw [(decode_eq_ok_iff_encode_eq w _).1 hd] at haField
    have hprecondition : preconditionWord w = true := (preconditionWord_iff w).2 (by rw [haField]; exact ⟨hd, ha⟩)
    simp [hprecondition] at hpre

/-- Among legal words, those of R70's shape are told by `op` and the high half of `A` alone. -/
theorem preconditionWord_iff_of_legal {w : CommandWord} (hlegal : illegalWord w = false) :
    preconditionWord w = true ↔ opField w = 0b010 ∧ w.extractLsb' 4 4 ≠ 0 := by
  have hhigh : (aField w).extractLsb' 4 4 = w.extractLsb' 4 4 := by
    rw [aField, BitVec.extractLsb'_extractLsb'_of_le (by decide)]
  simp only [preconditionWord, decide_eq_true_eq, hhigh]
  constructor
  · rintro ⟨hop, -, -, hne⟩
    exact ⟨hop, hne⟩
  · rintro ⟨hop, hne⟩
    obtain ⟨u, hu, hrsv, hb⟩ := (illegalWord_eq_false_iff w).1 hlegal
    have hunit : u ≠ .byteDecoder := by
      rintro rfl
      rw [hop] at hu
      exact absurd hu (by decide)
    exact ⟨hop, hrsv, hb.resolve_left hunit, hne⟩

/-- Settles O27: the statement's conditions are `illegalWord` and, for a legal word, `preconditionWord`; each of the three kinds
of word has its outcome above. -/
theorem everyWordHasExactlyOneOutcome : Obligations.EveryWordHasExactlyOneOutcome := by
  intro w s rest issued
  have hstep : step issued = runWord w { s with pending := rest, faultRecord := [] } :=
    step_of_pending issued w rest rfl rfl
  rw [hstep]
  split_ifs with hillegal hpre
  · rw [runWord_of_illegal (decide_eq_true hillegal)]
    exact ⟨rfl, rfl⟩
  · have hlegal : illegalWord w = false := decide_eq_false hillegal
    rw [runWord_of_precondition ((preconditionWord_iff_of_legal hlegal).2 hpre)]
    rfl
  · have hlegal : illegalWord w = false := decide_eq_false hillegal
    have hnot : preconditionWord w = false :=
      Bool.eq_false_iff.2 (mt (preconditionWord_iff_of_legal hlegal).1 hpre)
    obtain ⟨r, hr⟩ := runWord_of_completing (w := w) (by rw [completingWord, hlegal, hnot]; rfl)
    exact ⟨r, hr _⟩

end Sys2Proof.Machine
end

section
/-! The opcode table (opcode_table.json): a word matches a row exactly when it has the shape of the row's unit. -/

namespace Sys2Proof

theorem exists_row_of_unit (u : HammingUnit) : ∃ row ∈ opcodeTable, row.unit = u := by
  cases u <;> decide

/-- No unit has two rows. -/
theorem row_eq_of_unit_eq : ∀ r₁ ∈ opcodeTable, ∀ r₂ ∈ opcodeTable, r₁.unit = r₂.unit → r₁ = r₂ := by
  decide

/-- Every row's mask keeps `op` and `rsv`, drops `A`, and keeps `B` except in the byte decoder's row; its match is the unit's
`op` and nothing else. -/
theorem row_fields : ∀ row ∈ opcodeTable,
    (opField row.maskBits = BitVec.allOnes 3 ∧ rsvField row.maskBits = BitVec.allOnes 5 ∧
      bField row.maskBits = (if row.unit = .byteDecoder then 0 else BitVec.allOnes 8) ∧ aField row.maskBits = 0) ∧
    opField row.matchBits = opOfUnit row.unit ∧ rsvField row.matchBits = 0 ∧ bField row.matchBits = 0 ∧
      aField row.matchBits = 0 := by
  decide

theorem row_matches_iff {row : OpcodeRow} (hrow : row ∈ opcodeTable) (w : CommandWord) :
    row.matches w = true ↔ IsWordOf row.unit w := by
  obtain ⟨⟨mop, mrsv, mb, ma⟩, vop, vrsv, vb, va⟩ := row_fields row hrow
  rw [OpcodeRow.matches, beq_iff_eq, word_eq_iff_fields, opField_and, rsvField_and, bField_and, aField_and,
    mop, mrsv, mb, ma, vop, vrsv, vb, va, IsWordOf,
    BitVec.and_allOnes, BitVec.and_allOnes]
  by_cases hunit : row.unit = .byteDecoder
  · simp [hunit]
  · rw [if_neg hunit, BitVec.and_allOnes]
    simp [hunit]

/-- Settles O30: matching a row and decoding to its unit are both having the shape of that unit's word, which no word has for
two units. -/
theorem decoderAgreesWithOpcodeTable : Obligations.DecoderAgreesWithOpcodeTable := by
  constructor
  · intro w u
    rw [decodes_to_unit_iff]
    constructor
    · rintro ⟨row, hrow, rfl, hmatch⟩
      exact (row_matches_iff hrow w).1 hmatch
    · intro hword
      obtain ⟨row, hrow, rfl⟩ := exists_row_of_unit u
      exact ⟨row, hrow, rfl, (row_matches_iff hrow w).2 hword⟩
  · intro w r₁ h₁ r₂ h₂ hm₁ hm₂
    obtain ⟨i₁, hd₁, hu₁⟩ := (decodes_to_unit_iff w r₁.unit).2 ((row_matches_iff h₁ w).1 hm₁)
    obtain ⟨i₂, hd₂, hu₂⟩ := (decodes_to_unit_iff w r₂.unit).2 ((row_matches_iff h₂ w).1 hm₂)
    have hsame : i₁ = i₂ := Except.ok.inj (hd₁.symm.trans hd₂)
    exact row_eq_of_unit_eq r₁ h₁ r₂ h₂ (by rw [← hu₁, ← hu₂, hsame])

/-- Settles O31: each word is the encoding of the command written beside it, and decoding inverts encoding. -/
theorem sampleWordsDecode : Obligations.SampleWordsDecode := by
  simp only [Obligations.SampleWordsDecode, decode_eq_ok_iff_encode_eq]
  decide

end Sys2Proof
end

section
/-! The assembler at the operand level (30_encoding.md R41): which operand counts and ranges it takes, and the words it gives. -/

namespace Sys2Proof.Machine

/-- Operand values that are bytes and in the command's own range give the command's word. -/
theorem assembleInstr_of_wellFormed (u : HammingUnit) (a b : Byte) (h : (instrOf u a b).wellFormed = true) :
    assembleInstr u a.toNat b.toNat = .ok (encode (instrOf u a b)) := by
  have hbytes : a.toNat < 256 ∧ b.toNat < 256 := ⟨a.isLt, b.isLt⟩
  simp only [assembleInstr, if_pos hbytes, BitVec.ofNat_toNat, BitVec.setWidth_eq, h, if_true]

/-- An operand of more than eight bits is refused for every unit. -/
theorem assembleInstr_of_not_byte (u : HammingUnit) (n m : Nat) (h : 255 < n ∨ 255 < m) :
    assembleInstr u n m = .error .outOfRange := by
  simp only [assembleInstr]
  rw [if_neg (by omega)]

/-- The range of `ENCN`'s operand ends at 15, below that of its field. -/
theorem assembleInstr_encn_of_gt (n : Nat) (h : 15 < n) :
    assembleInstr .nibbleEncoder n 0 = .error .outOfRange := by
  by_cases hbyte : n < 256
  · have hwf : (instrOf .nibbleEncoder (BitVec.ofNat 8 n) (BitVec.ofNat 8 0)).wellFormed = false := by
      simp only [instrOf, Instr.wellFormed, BitVec.toNat_ofNat, decide_eq_false_iff_not]
      omega
    simp only [assembleInstr, hwf, Bool.false_eq_true, if_false, ite_self]
  · exact assembleInstr_of_not_byte _ _ _ (.inl (by omega))

/-- Every mnemonic but `DECB` assembles its one operand with field `B` 0. -/
theorem assembleCommand_one {u : HammingUnit} (hu : u ≠ .byteDecoder) (n : Nat) :
    assembleCommand u [n] = assembleInstr u n 0 := by
  cases u with
  | byteDecoder => exact absurd rfl hu
  | _ => rfl

theorem assembleCommand_operandCount {u : HammingUnit} (hu : u ≠ .byteDecoder) (ops : List Nat)
    (h : ops.length ≠ 1) : assembleCommand u ops = .error .operandCount := by
  cases u with
  | byteDecoder => exact absurd rfl hu
  | _ =>
    match ops with
    | [_] => exact absurd rfl h
    | [] | _ :: _ :: _ => rfl

theorem assembleCommand_decb_operandCount (ops : List Nat) (h : ops.length ≠ 2) :
    assembleCommand .byteDecoder ops = .error .operandCount := by
  match ops with
  | [_, _] => exact absurd rfl h
  | [] | [_] | _ :: _ :: _ :: _ => rfl

theorem assembleRaw_operandCount (ops : List Nat) (h : ops.length ≠ 1) :
    assembleRaw ops = .error .operandCount := by
  match ops with
  | [_] => exact absurd rfl h
  | [] | _ :: _ :: _ => rfl

theorem assembleRaw_of_ge (n : Nat) (h : 2 ^ 24 ≤ n) : assembleRaw [n] = .error .outOfRange :=
  if_neg (Nat.not_lt.2 h)

theorem assembleRaw_toNat (w : CommandWord) : assembleRaw [w.toNat] = .ok w := by
  rw [assembleRaw, if_pos w.isLt, BitVec.ofNat_toNat, BitVec.setWidth_eq]

/-- A nibble is in range for `ENCN`, and its word holds it under twelve zero bits. -/
theorem assembleCommand_encn (v : Nibble) :
    assembleCommand .nibbleEncoder [v.toNat] = .ok (0b010#3 ++ 0#5 ++ 0#12 ++ v) := by
  have hword : encode (.encn (v.zeroExtend 8)) = 0b010#3 ++ 0#5 ++ 0#12 ++ v := by
    revert v
    decide
  have hvalue : v.toNat = (v.zeroExtend 8).toNat := (BitVec.toNat_setWidth_of_le (by decide)).symm
  have hwf : (instrOf .nibbleEncoder (v.zeroExtend 8) 0).wellFormed = true :=
    decide_eq_true (by have := v.isLt; omega)
  rw [assembleCommand_one (by decide), hvalue, ← hword]
  exact assembleInstr_of_wellFormed _ _ 0 hwf

/-- Settles O43: each clause is one of the assembler's lemmas above. -/
theorem assemblerWordsAndRanges : Obligations.AssemblerWordsAndRanges := by
  refine ⟨fun a b => ⟨?_, ?_, ?_, ?_, ?_⟩, assembleCommand_encn, fun n hn => ?_, fun u n hu hn => ?_,
    assembleInstr_of_not_byte .byteDecoder, fun u ops hu => assembleCommand_operandCount hu ops,
    assembleCommand_decb_operandCount, assembleRaw_operandCount, assembleRaw_of_ge, assembleRaw_toNat⟩
  · exact assembleInstr_of_wellFormed .parityUnit a 0 rfl
  · exact assembleInstr_of_wellFormed .syndromeDecoder a 0 rfl
  · exact assembleInstr_of_wellFormed .nibbleDecoder a 0 rfl
  · exact assembleInstr_of_wellFormed .byteEncoder a 0 rfl
  · exact assembleInstr_of_wellFormed .byteDecoder a b rfl
  · rw [assembleCommand_one (by decide), assembleInstr_encn_of_gt n hn]
  · rw [assembleCommand_one hu, assembleInstr_of_not_byte u n 0 (.inl hn)]

/-- Settles O44: five fixed lines, read character by character. -/
theorem assemblerReadsTheExampleLines : Obligations.AssemblerReadsTheExampleLines :=
  ⟨rfl, rfl, rfl, rfl, rfl⟩

end Sys2Proof.Machine
end

section
/-! The parity unit (40_parity_unit.md R43 to R46): its word bit by bit, that it reads the data bits alone, and that it is linear
over xor. -/

namespace Sys2Proof.Machine

/-- The parity word has no bit outside the parity mask (R33). -/
theorem computeParity_bit_outside_parityMask (c : Byte) {k : Nat} (hk : k < 8) (hmask : parityMask.getLsbD k = false) :
    (computeParity c).getLsbD k = false := by
  obtain ⟨-, -, -, hzero⟩ := computeParity_bits c
  have hbit : (computeParity c &&& ~~~parityMask).getLsbD k = false := by
    rw [hzero]
    exact BitVec.getLsbD_zero
  simpa only [BitVec.getLsbD_and, BitVec.getLsbD_not, hk, hmask, decide_true, Bool.not_false,
    Bool.and_true] using hbit

theorem parityMask_bit_cases {k : Nat} (hk : k < 8) (hmask : parityMask.getLsbD k = true) : k = 6 ∨ k = 5 ∨ k = 3 := by
  revert hmask
  interval_cases k <;> decide

/-- Each parity equation is a sum mod 2, so it is linear over xor, and the word has no other bit (R46). -/
theorem computeParity_xor (a b : Byte) : computeParity (a ^^^ b) = computeParity a ^^^ computeParity b := by
  obtain ⟨ha6, ha5, ha3, -⟩ := computeParity_bits a
  obtain ⟨hb6, hb5, hb3, -⟩ := computeParity_bits b
  obtain ⟨h6, h5, h3, -⟩ := computeParity_bits (a ^^^ b)
  apply BitVec.eq_of_getLsbD_eq
  intro k hk
  cases hmask : parityMask.getLsbD k with
  | false => simp only [BitVec.getLsbD_xor, computeParity_bit_outside_parityMask _ hk hmask, Bool.xor_false]
  | true =>
    obtain rfl | rfl | rfl := parityMask_bit_cases hk hmask
    · simp only [h6, ha6, hb6, BitVec.getLsbD_xor, Bool.xor_assoc, Bool.xor_left_comm]
    · simp only [h5, ha5, hb5, BitVec.getLsbD_xor, Bool.xor_assoc, Bool.xor_left_comm]
    · simp only [h3, ha3, hb3, BitVec.getLsbD_xor, Bool.xor_assoc, Bool.xor_left_comm]

/-- Settles O4: by linearity a flip adds the parity word of the flipped bit alone, which is 0 for the bits the unit ignores. -/
theorem parIsLinearOverXor : Obligations.ParIsLinearOverXor := by
  have hflip (c m p : Byte) (hm : computeParity m = p) : computeParity (c ^^^ m) = computeParity c ^^^ p := by
    rw [computeParity_xor, hm]
  have hignored (c m : Byte) (hm : computeParity m = 0) : computeParity (c ^^^ m) = computeParity c :=
    (hflip c m 0 hm).trans BitVec.xor_zero
  refine ⟨computeParity, exec_par, computeParity_xor, rfl, fun c => ⟨?_, ?_, ?_, ?_⟩, fun c => ⟨?_, ?_, ?_, ?_⟩⟩
  · exact hflip c 0x10 0x60 rfl
  · exact hflip c 0x04 0x48 rfl
  · exact hflip c 0x02 0x28 rfl
  · exact hflip c 0x01 0x68 rfl
  · exact hignored c 0x80 rfl
  · exact hignored c 0x40 rfl
  · exact hignored c 0x20 rfl
  · exact hignored c 0x08 rfl

/-- Settles O1: the three equations are the word's bits 6, 5 and 3, its other bits are outside the parity mask, and
the command word is the encoding of `PAR a`. -/
theorem parComputesParityWord : Obligations.ParComputesParityWord := by
  intro a
  obtain ⟨h6, h5, h3, -⟩ := computeParity_bits a
  refine ⟨decode_encode (.par a), computeParity a, h6, h5, h3, ?_, ?_, ?_, ?_, ?_, exec_par a⟩ <;>
  · exact computeParity_bit_outside_parityMask a (by decide) (by decide)

/-- The unit's function takes the four data bits and nothing else (R43, R44). -/
theorem computeParity_congr {c d : Byte} (h4 : c.getLsbD 4 = d.getLsbD 4) (h2 : c.getLsbD 2 = d.getLsbD 2)
    (h1 : c.getLsbD 1 = d.getLsbD 1) (h0 : c.getLsbD 0 = d.getLsbD 0) : computeParity c = computeParity d := by
  simp only [computeParity, h4, h2, h1, h0]

/-- The data mask keeps every bit the parity unit reads (R44). -/
theorem computeParity_and_dataMask (c : Byte) : computeParity (c &&& dataMask) = computeParity c := by
  have hkeep {k : Nat} (hk : dataMask.getLsbD k = true) : (c &&& dataMask).getLsbD k = c.getLsbD k := by
    rw [BitVec.getLsbD_and, hk, Bool.and_true]
  exact computeParity_congr (hkeep rfl) (hkeep rfl) (hkeep rfl) (hkeep rfl)

/-- Settles O2: `PAR`'s outcome depends on its operand through the parity word alone, which only the data bits decide. -/
theorem parReadsOnlyDataBits : Obligations.ParReadsOnlyDataBits := by
  constructor
  · intro c s
    rw [exec_par, ← computeParity_and_dataMask c]
    rfl
  · intro c d s h4 h2 h1 h0
    rw [exec_par, exec_par, computeParity_congr h4 h2 h1 h0]

/-- Settles O3: the rows are the parity words of the 16 data patterns, and an input has the parity word of its data bits. -/
theorem parTableOfDataPatterns : Obligations.ParTableOfDataPatterns := by
  intro n
  refine ⟨computeParity (dataBits n), ?_, ?_, fun c s hc => ?_⟩
  · revert n
    decide
  · revert n
    decide
  · have hpattern : computeParity c = computeParity (dataBits n) := by
      rw [← hc]
      exact (computeParity_and_dataMask c).symm
    rw [exec_par, hpattern]
    rfl

end Sys2Proof.Machine
end

section
/-! The syndrome decoder (41_syndrome_decoder.md R47 to R52): the error position by the three mismatch flags, its rule for xor, and
the codewords as the words that answer 7. -/

namespace Sys2Proof.Machine

/-- R49's column `{m_p3, m_p2, m_p1}`: the three mismatch flags of a word as one 3-bit value. -/
def mismatchFlags (c : Byte) : BitVec 3 :=
  BitVec.ofBool (c.getLsbD 3 ^^ c.getLsbD 2 ^^ c.getLsbD 1 ^^ c.getLsbD 0) ++
    BitVec.ofBool (c.getLsbD 5 ^^ c.getLsbD 4 ^^ c.getLsbD 1 ^^ c.getLsbD 0) ++
    BitVec.ofBool (c.getLsbD 6 ^^ c.getLsbD 4 ^^ c.getLsbD 2 ^^ c.getLsbD 0)

/-- `7 - S` complements the syndrome's three bits (R48, R49). -/
theorem locateError_eq_not_mismatchFlags (c : Byte) : locateError c = ~~~mismatchFlags c := by
  obtain ⟨h6, h5, h3, -⟩ := computeParity_bits c
  simp only [locateError, syndrome, parityMismatch, mismatchFlags, BitVec.getLsbD_xor, h6, h5, h3, Bool.xor_assoc]
  generalize (c.getLsbD 3 ^^ (c.getLsbD 2 ^^ (c.getLsbD 1 ^^ c.getLsbD 0))) = m3
  generalize (c.getLsbD 5 ^^ (c.getLsbD 4 ^^ (c.getLsbD 1 ^^ c.getLsbD 0))) = m2
  generalize (c.getLsbD 6 ^^ (c.getLsbD 4 ^^ (c.getLsbD 2 ^^ c.getLsbD 0))) = m1
  revert m3 m2 m1
  decide

/-- The flags read the seven code bits alone (R52). -/
theorem mismatchFlags_congr {c d : Byte} (h : ∀ k < 7, c.getLsbD k = d.getLsbD k) :
    mismatchFlags c = mismatchFlags d := by
  simp only [mismatchFlags, h, Nat.reduceLT]

theorem mismatchFlags_xor (a b : Byte) : mismatchFlags (a ^^^ b) = mismatchFlags a ^^^ mismatchFlags b := by
  have happend (x y z x' y' z' : BitVec 1) :
      (x ++ y ++ z) ^^^ (x' ++ y' ++ z') = (x ^^^ x') ++ (y ^^^ y') ++ (z ^^^ z') := by
    rw [← BitVec.xor_append, ← BitVec.xor_append]
  refine Eq.trans ?_ (happend ..).symm
  simp only [mismatchFlags, BitVec.getLsbD_xor, BitVec.ofBool_xor_ofBool, Bool.xor_assoc, Bool.xor_left_comm]

/-- A codeword is a word without a mismatch (R30). -/
theorem mismatchFlags_eq_zero_iff (c : Byte) : mismatchFlags c = 0 ↔ valid c = true := by
  simp only [mismatchFlags, valid, Bool.xor_assoc]
  generalize c.getLsbD 6 = p1, (c.getLsbD 4 ^^ (c.getLsbD 2 ^^ c.getLsbD 0)) = q1
  generalize c.getLsbD 5 = p2, (c.getLsbD 4 ^^ (c.getLsbD 1 ^^ c.getLsbD 0)) = q2
  generalize c.getLsbD 3 = p3, (c.getLsbD 2 ^^ (c.getLsbD 1 ^^ c.getLsbD 0)) = q3
  revert p1 q1 p2 q2 p3 q3
  decide

/-- The position is linear over xor up to the constant 7, the position of the word 0 (R46, R48). -/
theorem locateError_xor (a b : Byte) : locateError (a ^^^ b) = locateError a ^^^ locateError b ^^^ 7 := by
  simp only [locateError_eq_not_mismatchFlags, mismatchFlags_xor]
  generalize mismatchFlags a = x
  generalize mismatchFlags b = y
  revert x y
  decide

theorem locateError_eq_seven_iff (c : Byte) : locateError c = 7 ↔ valid c = true := by
  rw [← mismatchFlags_eq_zero_iff, locateError_eq_not_mismatchFlags]
  generalize mismatchFlags c = x
  revert x
  decide

/-- A single bit, bit 7 included, names itself (R49). -/
theorem locateError_bitMask {b : Nat} (hb : b < 8) : locateError (bitMask b) = BitVec.ofNat 3 b := by
  revert b
  decide

theorem locateError_bitMask_toNat (p : Position) : locateError (bitMask p.toNat) = p := by
  rw [locateError_bitMask p.isLt, BitVec.ofNat_toNat, BitVec.setWidth_eq]

/-- After a valid codeword the position depends on the flips alone, not on the codeword (R49). -/
theorem locateError_xor_of_valid {c : Codeword} (hc : valid c = true) (e : Byte) :
    locateError (c ^^^ e) = locateError e := by
  rw [locateError_xor, (locateError_eq_seven_iff c).2 hc, BitVec.xor_comm 7, BitVec.xor_assoc, BitVec.xor_self,
    BitVec.xor_zero]

/-- Flipping the named bit always gives a valid word (R51, R62); the position 7 names bit 7, which validity does not read. -/
theorem valid_xor_bitMask_locateError (c : Byte) : valid (c ^^^ bitMask (locateError c).toNat) = true := by
  rw [← locateError_eq_seven_iff, locateError_xor, locateError_bitMask_toNat, BitVec.xor_self, BitVec.zero_xor]

/-- Settles O5: `locateError_toNat`, with the syndrome read as the mismatch's three weighted bits. -/
theorem synAnswersSevenMinusSyndrome : Obligations.SynAnswersSevenMinusSyndrome := by
  intro a
  refine ⟨decode_encode (.syn a), computeParity a, locateError a, exec_par a, ?_, exec_syn a⟩
  have hle := syndrome_le a
  rw [locateError_toNat]
  exact Nat.sub_add_cancel hle

/-- Settles O6: the position is the complement of the three flags the row gives, and after a valid codeword the position of the
flip alone. -/
theorem synTableNamesTheFlippedBit : Obligations.SynTableNamesTheFlippedBit := by
  constructor
  · intro row hrow a s h3 h2 h1
    have hposition : ~~~(BitVec.ofBool row.1 ++ BitVec.ofBool row.2.1 ++ BitVec.ofBool row.2.2.1) = row.2.2.2 := by
      clear h3 h2 h1
      revert row
      decide
    rw [exec_syn, locateError_eq_not_mismatchFlags, mismatchFlags, h3, h2, h1, hposition]
    rfl
  · intro c s hc
    constructor
    · rw [exec_syn, (locateError_eq_seven_iff c).2 hc]
      rfl
    · intro b hb
      have hflip : locateError (c ^^^ (1#8 <<< b)) = BitVec.ofNat 3 b :=
        (locateError_xor_of_valid hc (bitMask b)).trans (locateError_bitMask (by omega))
      rw [exec_syn, hflip]
      rfl

/-- Settles O8: the flags of `c` and of `c` without bit 7 are the same. -/
theorem synIgnoresBitSeven : Obligations.SynIgnoresBitSeven := by
  intro c s
  have hflags : mismatchFlags (c &&& 0x7F) = mismatchFlags c := by
    apply mismatchFlags_congr
    intro k hk
    have hbit : (0x7F : Byte).getLsbD k = true := by interval_cases k <;> rfl
    rw [BitVec.getLsbD_and, hbit, Bool.and_true]
  simp only [exec_syn, locateError_eq_not_mismatchFlags, hflags]

end Sys2Proof.Machine
end

section
/-! Two and three flips of a codeword (41_syndrome_decoder.md R51). The bit the decoder names is never one of two or three flipped
bits, because flipping it back would leave a valid word of one or two bits, and there is none. -/

namespace Sys2Proof.Machine

theorem getLsbD_bitMask {b : Nat} (hb : b < 8) (k : Nat) : (bitMask b).getLsbD k = decide (k = b) := by
  rw [bitMask, ← BitVec.twoPow_eq, BitVec.getLsbD_twoPow]
  simp [hb, eq_comm]

/-- The count of flips does not include bit 7 (R32). -/
theorem flippedBits_eq (e : Byte) :
    flippedBits e = (e.getLsbD 0).toNat + (e.getLsbD 1).toNat + (e.getLsbD 2).toNat + (e.getLsbD 3).toNat
      + (e.getLsbD 4).toNat + (e.getLsbD 5).toNat + (e.getLsbD 6).toNat := by
  simp [flippedBits, popcount]

theorem flippedBits_bitMask : ∀ b < 7, flippedBits (bitMask b) = 1 := by
  decide

/-- Taking one flip back leaves one flip fewer. -/
theorem flippedBits_xor_bitMask {e : Byte} {k : Nat} (hk : k < 7) (he : e.getLsbD k = true) :
    flippedBits (e ^^^ bitMask k) + 1 = flippedBits e := by
  simp only [flippedBits_eq, BitVec.getLsbD_xor, getLsbD_bitMask (Nat.lt_succ_of_lt hk)]
  interval_cases k <;> simp [-BitVec.getLsbD_eq_getElem, he] <;> omega

/-- The code's distance: a valid word has no flips or at least three, because its data bits fix its parity bits. -/
theorem flippedBits_of_valid {e : Byte} (he : valid e = true) : flippedBits e = 0 ∨ 3 ≤ flippedBits e := by
  simp only [valid, Bool.and_eq_true, beq_iff_eq] at he
  obtain ⟨⟨h6, h5⟩, h3⟩ := he
  rw [flippedBits_eq, h6, h5, h3]
  generalize e.getLsbD 4 = d1
  generalize e.getLsbD 2 = d2
  generalize e.getLsbD 1 = d3
  generalize e.getLsbD 0 = d4
  revert d1 d2 d3 d4
  decide

theorem position_toNat_lt_seven : ∀ {p : Position}, p ≠ 7 → p.toNat < 7 := by
  decide

/-- After two or three flips the decoder names no flipped bit (R51). -/
theorem getLsbD_locateError_of_flippedBits {e : Byte} (he : flippedBits e = 2 ∨ flippedBits e = 3)
    (hne : locateError e ≠ 7) : e.getLsbD (locateError e).toNat = false := by
  by_contra hset
  have hfewer := flippedBits_xor_bitMask (position_toNat_lt_seven hne) (Bool.eq_true_of_not_eq_false hset)
  have hdistance := flippedBits_of_valid (valid_xor_bitMask_locateError e)
  omega

theorem getLsbD_two_flips {b₁ b₂ : Nat} (h₁ : b₁ < 7) (h₂ : b₂ < 7) (hne : b₁ ≠ b₂) :
    (bitMask b₁ ^^^ bitMask b₂).getLsbD b₁ = true := by
  rw [BitVec.getLsbD_xor, getLsbD_bitMask (by omega), getLsbD_bitMask (by omega)]
  simp [hne]

theorem flippedBits_two_flips {b₁ b₂ : Nat} (h₁ : b₁ < 7) (h₂ : b₂ < 7) (hne : b₁ ≠ b₂) :
    flippedBits (bitMask b₁ ^^^ bitMask b₂) = 2 := by
  have hfewer := flippedBits_xor_bitMask h₁ (getLsbD_two_flips h₁ h₂ hne)
  rw [BitVec.xor_comm, ← BitVec.xor_assoc, BitVec.xor_self, BitVec.zero_xor, flippedBits_bitMask b₂ h₂] at hfewer
  exact hfewer.symm

theorem flippedBits_three_flips {b₁ b₂ b₃ : Nat} (h₁ : b₁ < 7) (h₂ : b₂ < 7) (h₃ : b₃ < 7) (hne : b₁ ≠ b₂)
    (hne₁ : b₃ ≠ b₁) (hne₂ : b₃ ≠ b₂) : flippedBits (bitMask b₁ ^^^ bitMask b₂ ^^^ bitMask b₃) = 3 := by
  have hset : (bitMask b₁ ^^^ bitMask b₂ ^^^ bitMask b₃).getLsbD b₃ = true := by
    rw [BitVec.getLsbD_xor, BitVec.getLsbD_xor, getLsbD_bitMask (by omega), getLsbD_bitMask (by omega),
      getLsbD_bitMask (by omega)]
    simp [hne₁, hne₂]
  have hfewer := flippedBits_xor_bitMask h₃ hset
  rw [BitVec.xor_assoc _ (bitMask b₃), BitVec.xor_self, BitVec.xor_zero, flippedBits_two_flips h₁ h₂ hne] at hfewer
  exact hfewer.symm

/-- Two different flips make the decoder name a third code bit, never 7 (R51). -/
theorem locateError_two_flips {b₁ b₂ : Nat} (h₁ : b₁ < 7) (h₂ : b₂ < 7) (hne : b₁ ≠ b₂) :
    (locateError (bitMask b₁ ^^^ bitMask b₂)).toNat < 7 ∧ (locateError (bitMask b₁ ^^^ bitMask b₂)).toNat ≠ b₁ ∧
      (locateError (bitMask b₁ ^^^ bitMask b₂)).toNat ≠ b₂ := by
  have hset₁ := getLsbD_two_flips h₁ h₂ hne
  have hset₂ := BitVec.xor_comm (bitMask b₂) (bitMask b₁) ▸ getLsbD_two_flips h₂ h₁ hne.symm
  have hweight := flippedBits_two_flips h₁ h₂ hne
  generalize bitMask b₁ ^^^ bitMask b₂ = e at hset₁ hset₂ hweight ⊢
  have hne7 : locateError e ≠ 7 := by
    intro h7
    have hdistance := flippedBits_of_valid ((locateError_eq_seven_iff e).1 h7)
    omega
  have hunset := getLsbD_locateError_of_flippedBits (.inl hweight) hne7
  exact ⟨position_toNat_lt_seven hne7, ne_of_apply_ne e.getLsbD (by rw [hunset, hset₁]; decide),
    ne_of_apply_ne e.getLsbD (by rw [hunset, hset₂]; decide)⟩

theorem valid_of_mem_codewordTable : ∀ c ∈ codewordTable, valid c = true := by
  decide

/-- A count that is the same for every codeword is taken 16 times over the table. -/
theorem length_flatMap_codewordTable {g : Codeword → List Nat} {n : Nat}
    (h : ∀ c ∈ codewordTable, (g c).length = n) : (codewordTable.flatMap g).length = 16 * n := by
  rw [List.length_flatMap, List.map_congr_left h, List.map_const', List.sum_replicate]
  rfl

/-- The patterns of three flips among seven bits: `7.choose 3`. -/
theorem three_flips_count :
    ((List.range 128).filter fun e => flippedBits (BitVec.ofNat 8 e) = 3).length = 35 := by
  decide

/-- The patterns of three flips that answer 7 are the seven codewords with three set bits. -/
theorem three_flips_unseen_count :
    ((List.range 128).filter fun e =>
      flippedBits (BitVec.ofNat 8 e) = 3 ∧ locateError (BitVec.ofNat 8 e) = 7).length = 7 := by
  decide

/-- Settles O7: the position after flips of a codeword is that of the flip pattern, the named bit is not in the pattern, and the
patterns that answer 7 are counted once for all 16 codewords. -/
theorem synAfterTwoOrThreeFlips : Obligations.SynAfterTwoOrThreeFlips := by
  refine ⟨locateError, exec_syn, fun c hc b₁ h₁ b₂ h₂ hne => ?_, ?_, ?_, fun c hc e he hne => ?_⟩
  · obtain ⟨h₃, hne₁, hne₂⟩ := locateError_two_flips h₁ h₂ hne
    have hposition : locateError (c ^^^ bitMask b₁ ^^^ bitMask b₂) = locateError (bitMask b₁ ^^^ bitMask b₂) := by
      rw [BitVec.xor_assoc, locateError_xor_of_valid hc]
    have hvalid := valid_xor_bitMask_locateError (c ^^^ bitMask b₁ ^^^ bitMask b₂)
    have hweight := flippedBits_three_flips h₁ h₂ h₃ hne hne₁ hne₂
    rw [hposition] at hvalid
    refine ⟨_, h₃, hne₁, hne₂, ?_, hvalid, ?_⟩
    · rw [BitVec.ofNat_toNat, BitVec.setWidth_eq]
      exact hposition
    · exact hweight.trans_ne (by decide)
  · apply length_flatMap_codewordTable (n := 7)
    intro c hc
    simp only [locateError_xor_of_valid (valid_of_mem_codewordTable c hc)]
    exact three_flips_unseen_count
  · exact length_flatMap_codewordTable fun _ _ => three_flips_count
  · refine ⟨?_, valid_xor_bitMask_locateError (c ^^^ e)⟩
    rw [locateError_xor_of_valid (valid_of_mem_codewordTable c hc)] at hne ⊢
    exact getLsbD_locateError_of_flippedBits (.inr he) hne

end Sys2Proof.Machine
end

section
/-! The nibble encoder (42_nibble_codec.md R54 to R56): the codeword is the nibble's data bits with their parity word beside
them, and every valid word is, in its seven code bits, the codeword of its own nibble. -/

namespace Sys2Proof.Machine

/-- A nibble widened to `ENCN`'s operand reaches the encoder's port as it stands (R53). -/
theorem exec_encn_zeroExtend (v : Nibble) (s : State) :
    exec (.encn (v.zeroExtend 8)) s = .next (s.appendResult (.codeword (encodeNibble v))) := by
  have hvalue : (v.zeroExtend 8).toNat ≤ 15 := by
    rw [BitVec.zeroExtend, BitVec.toNat_setWidth_of_le (by decide)]
    exact Nat.le_of_lt_succ v.isLt
  have hport : (v.zeroExtend 8).extractLsb' 0 4 = v := by
    rw [BitVec.zeroExtend, BitVec.extractLsb'_setWidth_of_le (by decide), BitVec.extractLsb'_eq_self]
  rw [exec_encn_of_le _ _ hvalue, hport]

theorem zeroExtend_lowNibble_of_le {a : Byte} (ha : a.toNat ≤ 15) : (a.extractLsb' 0 4).zeroExtend 8 = a := by
  apply BitVec.eq_of_toNat_eq
  rw [BitVec.zeroExtend, BitVec.toNat_setWidth_of_le (by decide), BitVec.extractLsb'_toNat, Nat.shiftRight_zero]
  omega

/-- Bit by bit, the data positions hold the nibble and the other positions are 0 (R29). -/
theorem dataBits_bits (v : Nibble) :
    (dataBits v).getLsbD 4 = v.getLsbD 3 ∧ (dataBits v).getLsbD 2 = v.getLsbD 2 ∧
    (dataBits v).getLsbD 1 = v.getLsbD 1 ∧ (dataBits v).getLsbD 0 = v.getLsbD 0 ∧
    (dataBits v).getLsbD 6 = false ∧ (dataBits v).getLsbD 5 = false ∧
    (dataBits v).getLsbD 3 = false ∧ (dataBits v).getLsbD 7 = false := by
  revert v
  decide

theorem dataBits_and_dataMask (v : Nibble) : dataBits v &&& dataMask = dataBits v := by
  revert v
  decide

/-- Encode step 2 puts the nibble into the data positions (R54). -/
theorem relocate_zeroExtend (v : Nibble) : relocate (v.zeroExtend 8) = dataBits v := by
  revert v
  decide

theorem encodeNibble_eq (v : Nibble) : encodeNibble v = dataBits v ||| computeParity (dataBits v) := by
  rw [encodeNibble, relocate_zeroExtend]

/-- Data bits and parity words share no bit (R54). -/
theorem dataBits_and_computeParity (v : Nibble) (c : Byte) : dataBits v &&& computeParity c = 0 := by
  obtain ⟨-, -, -, -, h6, h5, h3, -⟩ := dataBits_bits v
  apply BitVec.eq_of_getLsbD_eq
  intro k hk
  rw [BitVec.getLsbD_and, BitVec.ofNat_eq_ofNat, BitVec.getLsbD_zero]
  cases hmask : parityMask.getLsbD k with
  | false => rw [computeParity_bit_outside_parityMask c hk hmask, Bool.and_false]
  | true =>
    obtain rfl | rfl | rfl := parityMask_bit_cases hk hmask
    · rw [h6, Bool.false_and]
    · rw [h5, Bool.false_and]
    · rw [h3, Bool.false_and]

/-- The codeword bit by bit (R55). -/
theorem encodeNibble_bits (v : Nibble) :
    (encodeNibble v).getLsbD 4 = v.getLsbD 3 ∧ (encodeNibble v).getLsbD 2 = v.getLsbD 2 ∧
    (encodeNibble v).getLsbD 1 = v.getLsbD 1 ∧ (encodeNibble v).getLsbD 0 = v.getLsbD 0 ∧
    (encodeNibble v).getLsbD 6 = (v.getLsbD 3 ^^ v.getLsbD 2 ^^ v.getLsbD 0) ∧
    (encodeNibble v).getLsbD 5 = (v.getLsbD 3 ^^ v.getLsbD 1 ^^ v.getLsbD 0) ∧
    (encodeNibble v).getLsbD 3 = (v.getLsbD 2 ^^ v.getLsbD 1 ^^ v.getLsbD 0) ∧
    (encodeNibble v).getLsbD 7 = false := by
  obtain ⟨d4, d2, d1, d0, d6, d5, d3, d7⟩ := dataBits_bits v
  obtain ⟨p6, p5, p3, -⟩ := computeParity_bits (dataBits v)
  have hoff {k : Nat} (hk : k < 8) (hmask : parityMask.getLsbD k = false) :=
    computeParity_bit_outside_parityMask (dataBits v) hk hmask
  rw [d4, d2, d0] at p6
  rw [d4, d1, d0] at p5
  rw [d2, d1, d0] at p3
  simp only [encodeNibble_eq, BitVec.getLsbD_or]
  refine ⟨?_, ?_, ?_, ?_, ?_, ?_, ?_, ?_⟩
  · rw [d4, hoff (by decide) rfl, Bool.or_false]
  · rw [d2, hoff (by decide) rfl, Bool.or_false]
  · rw [d1, hoff (by decide) rfl, Bool.or_false]
  · rw [d0, hoff (by decide) rfl, Bool.or_false]
  · rw [d6, p6, Bool.false_or]
  · rw [d5, p5, Bool.false_or]
  · rw [d3, p3, Bool.false_or]
  · rw [d7, hoff (by decide) rfl, Bool.or_false]

/-- A word with bit 7 clear is in the codeword range (R55). -/
theorem toNat_le_of_bit_seven {c : Byte} (h : c.getLsbD 7 = false) : c.toNat ≤ 127 :=
  Nat.le_of_lt_succ (BitVec.toNat_lt_of_msb_false (c.msb_eq_getLsbD_last.trans h))

theorem valid_encodeNibble (v : Nibble) : valid (encodeNibble v) = true :=
  (Bool.and_eq_true_iff.1 (producedCodeword_encodeNibble v)).1

/-- Bit by bit, a word's nibble is its four data bits (R29). -/
theorem nibbleOf_bits (c : Codeword) :
    (nibbleOf c).getLsbD 3 = c.getLsbD 4 ∧ (nibbleOf c).getLsbD 2 = c.getLsbD 2 ∧
    (nibbleOf c).getLsbD 1 = c.getLsbD 1 ∧ (nibbleOf c).getLsbD 0 = c.getLsbD 0 := by
  simp only [nibbleOf, BitVec.getLsbD_append, BitVec.getLsbD_extractLsb']
  exact ⟨rfl, rfl, rfl, rfl⟩

theorem nibble_ext {m n : Nibble} (h3 : m.getLsbD 3 = n.getLsbD 3) (h2 : m.getLsbD 2 = n.getLsbD 2)
    (h1 : m.getLsbD 1 = n.getLsbD 1) (h0 : m.getLsbD 0 = n.getLsbD 0) : m = n := by
  apply BitVec.eq_of_getLsbD_eq
  intro k hk
  interval_cases k
  · exact h0
  · exact h1
  · exact h2
  · exact h3

theorem nibbleOf_encodeNibble (v : Nibble) : nibbleOf (encodeNibble v) = v := by
  obtain ⟨n3, n2, n1, n0⟩ := nibbleOf_bits (encodeNibble v)
  obtain ⟨c4, c2, c1, c0, -⟩ := encodeNibble_bits v
  exact nibble_ext (n3.trans c4) (n2.trans c2) (n1.trans c1) (n0.trans c0)

/-- A valid word without its bit 7 is the codeword of its own nibble, because its data bits fix its parity bits (R30). -/
theorem encodeNibble_nibbleOf {c : Codeword} (hc : valid c = true) : encodeNibble (nibbleOf c) = c &&& 0x7F := by
  obtain ⟨e4, e2, e1, e0, e6, e5, e3, e7⟩ := encodeNibble_bits (nibbleOf c)
  obtain ⟨n3, n2, n1, n0⟩ := nibbleOf_bits c
  simp only [valid, Bool.and_eq_true, beq_iff_eq] at hc
  obtain ⟨⟨h6, h5⟩, h3⟩ := hc
  rw [n3, n2, n0, ← h6] at e6
  rw [n3, n1, n0, ← h5] at e5
  rw [n2, n1, n0, ← h3] at e3
  have hkeep {k : Nat} (hk : (0x7F#8).getLsbD k = true) : (c &&& 0x7F#8).getLsbD k = c.getLsbD k := by
    rw [BitVec.getLsbD_and, hk, Bool.and_true]
  have hdrop : (c &&& 0x7F#8).getLsbD 7 = false := by
    rw [BitVec.getLsbD_and]
    exact Bool.and_false _
  apply BitVec.eq_of_getLsbD_eq
  intro k hk
  interval_cases k
  · exact (e0.trans n0).trans (hkeep rfl).symm
  · exact (e1.trans n1).trans (hkeep rfl).symm
  · exact (e2.trans n2).trans (hkeep rfl).symm
  · exact e3.trans (hkeep rfl).symm
  · exact (e4.trans n3).trans (hkeep rfl).symm
  · exact e5.trans (hkeep rfl).symm
  · exact e6.trans (hkeep rfl).symm
  · exact e7.trans hdrop.symm

/-- The mask of the code bits takes a set bit 7 away and changes nothing else (R52). -/
theorem and_codeMask_eq (c : Byte) : c &&& 0x7F = if c.getLsbD 7 then c ^^^ 0x80 else c := by
  apply BitVec.eq_of_getLsbD_eq
  intro k hk
  obtain hk | rfl : k < 7 ∨ k = 7 := by omega
  · have hmask : (0x7F#8).getLsbD k = true := by interval_cases k <;> rfl
    rw [BitVec.getLsbD_and, BitVec.ofNat_eq_ofNat, hmask, Bool.and_true]
    split_ifs
    · exact (getLsbD_xor_bit_seven c hk).symm
    · rfl
  · split_ifs with h7
    · rw [BitVec.getLsbD_and, BitVec.getLsbD_xor, h7]
      rfl
    · rw [BitVec.getLsbD_and, Bool.eq_false_of_not_eq_true h7]
      rfl

/-- The table lists the codewords in the order of their nibbles (R56). -/
theorem codewordTable_getElem? (v : Nibble) : codewordTable[v.toNat]? = some (encodeNibble v) := by
  revert v
  decide

theorem mem_codewordTable_iff (c : Codeword) : c ∈ codewordTable ↔ ∃ v, encodeNibble v = c := by
  constructor
  · revert c
    decide
  · rintro ⟨v, rfl⟩
    exact List.mem_of_getElem? (codewordTable_getElem? v)

/-- Settles O9: an operand in range is a widened nibble, whose relocation is its data bits, and a parity word shares no bit with
those; above the range the command stops. -/
theorem encnRelocatesAndAddsParity : Obligations.EncnRelocatesAndAddsParity := by
  intro a
  refine ⟨decode_encode (.encn a), fun ha => ?_, fun ha s => ⟨_, _, exec_encn_of_gt a s ha⟩⟩
  have hrelocate : relocate a = dataBits (a.extractLsb' 0 4) := by
    rw [← relocate_zeroExtend, zeroExtend_lowNibble_of_le ha]
  refine ⟨relocate a, computeParity (relocate a), rfl, exec_par _, ?_, fun s => ?_⟩
  · rw [hrelocate]
    exact dataBits_and_computeParity _ _
  · rw [exec_encn_of_le a s ha, encodeNibble_eq, ← hrelocate]
    rfl

/-- Settles O10: the bits of `encodeNibble_bits`, and the range that a clear bit 7 gives. -/
theorem encnResultIsTheNibblesCodeword : Obligations.EncnResultIsTheNibblesCodeword := by
  intro v
  obtain ⟨h4, h2, h1, h0, h6, h5, h3, h7⟩ := encodeNibble_bits v
  exact ⟨encodeNibble v, exec_encn_zeroExtend v, h4, h2, h1, h0, h6, h5, h3, h7, toNat_le_of_bit_seven h7⟩

/-- Settles O11: the columns `c` and `p` are the parity unit's own table of data patterns; a valid word without bit 7 is the
codeword of its nibble, so it is listed, and a listed word is some nibble's codeword. -/
theorem encnTableOfCodewords : Obligations.EncnTableOfCodewords := by
  refine ⟨fun v => ?_, fun c => ?_, by decide⟩
  · obtain ⟨p, hc, hp, hpar⟩ := parTableOfDataPatterns v
    exact ⟨dataBits v, p, encodeNibble v, hc, hp, codewordTable_getElem? v, relocate_zeroExtend v,
      fun s => hpar _ s (dataBits_and_dataMask v), exec_encn_zeroExtend v⟩
  · rw [mem_codewordTable_iff]
    constructor
    · rintro ⟨v, rfl⟩
      exact ⟨valid_encodeNibble v, producedCodeword_bit_seven (producedCodeword_encodeNibble v)⟩
    · rintro ⟨hc, h7⟩
      refine ⟨nibbleOf c, ?_⟩
      rw [encodeNibble_nibbleOf hc, and_codeMask_eq, h7]
      rfl

end Sys2Proof.Machine
end

section
/-! The nibble decoder (42_nibble_codec.md R57 to R62). Its last four steps read the nibble of the corrected word, which is always
valid; so decoding is linear over xor after a codeword, and only the error pattern decides whether the nibble is right. -/

namespace Sys2Proof.Machine

theorem correct_eq (c : Byte) (p : Position) : correct c p = if p = 7 then c else c ^^^ bitMask p.toNat :=
  ite_not ..

/-- The word after step 2 is valid for every input (R62). -/
theorem valid_correct_locateError (c : Byte) : valid (correct c (locateError c)) = true := by
  rw [correct_eq]
  split_ifs with h7
  · exact (locateError_eq_seven_iff c).1 h7
  · exact valid_xor_bitMask_locateError c

/-- The correction of a position flips the same bit in every word. -/
theorem correct_xor (c e : Byte) (p : Position) : correct (c ^^^ e) p = c ^^^ correct e p := by
  rw [correct_eq, correct_eq]
  split_ifs
  · rfl
  · exact BitVec.xor_assoc ..

/-- Step 5 on a word without bit 3 fills bit 3 from bit 4 (R58). -/
theorem unrelocate_bits {c : Byte} (h3 : c.getLsbD 3 = false) :
    (unrelocate c).getLsbD 3 = c.getLsbD 4 ∧ ∀ k < 3, (unrelocate c).getLsbD k = c.getLsbD k := by
  have hset (k : Nat) (hk : k < 4) : ((c &&& ~~~0x10#8) ||| 0x08#8).getLsbD k = (c.getLsbD k || decide (k = 3)) := by
    interval_cases k <;> simp
  unfold unrelocate
  split_ifs with h4
  · refine ⟨?_, fun k hk => ?_⟩
    · rw [hset 3 (by decide), h4]
      exact Bool.or_true _
    · rw [hset k (by omega), decide_eq_false (by omega), Bool.or_false]
  · exact ⟨h3.trans (Bool.eq_false_of_not_eq_true h4).symm, fun _ _ => rfl⟩

/-- Steps 3 to 6 on a valid word give its nibble: its parity word clears bit 3, and the relocation is undone (R58, R62). -/
theorem extract_unrelocate_strip_of_valid {c : Codeword} (hc : valid c = true) :
    (unrelocate (c &&& ~~~computeParity c)).extractLsb' 0 4 = nibbleOf c := by
  obtain ⟨n3, n2, n1, n0⟩ := nibbleOf_bits c
  obtain ⟨-, -, p3, -⟩ := computeParity_bits c
  have hkeep {k : Nat} (hk : k < 8) (hmask : parityMask.getLsbD k = false) :
      (c &&& ~~~computeParity c).getLsbD k = c.getLsbD k := by
    rw [BitVec.getLsbD_and, BitVec.getLsbD_not, computeParity_bit_outside_parityMask c hk hmask, decide_eq_true hk]
    exact Bool.and_true _
  have hstrip : (c &&& ~~~computeParity c).getLsbD 3 = false := by
    have h3 : c.getLsbD 3 = (c.getLsbD 2 ^^ c.getLsbD 1 ^^ c.getLsbD 0) :=
      beq_iff_eq.1 (Bool.and_eq_true_iff.1 hc).2
    rw [BitVec.getLsbD_and, BitVec.getLsbD_not, h3, p3]
    exact Bool.and_not_self _
  obtain ⟨u3, ulow⟩ := unrelocate_bits hstrip
  apply nibble_ext <;> rw [BitVec.getLsbD_extractLsb']
  · exact (u3.trans (hkeep (by decide) rfl)).trans n3.symm
  · exact ((ulow 2 (by decide)).trans (hkeep (by decide) rfl)).trans n2.symm
  · exact ((ulow 1 (by decide)).trans (hkeep (by decide) rfl)).trans n1.symm
  · exact ((ulow 0 (by decide)).trans (hkeep (by decide) rfl)).trans n0.symm

/-- The closed form of the decoder (R62). -/
theorem decodeNibble_eq (c : Byte) : decodeNibble c = nibbleOf (correct c (locateError c)) :=
  extract_unrelocate_strip_of_valid (valid_correct_locateError c)

theorem decodeNibble_and_codeMask (c : Byte) : decodeNibble (c &&& 0x7F) = decodeNibble c := by
  rw [and_codeMask_eq]
  split_ifs
  · exact decodeNibble_xor_bit_seven c
  · rfl

theorem nibbleOf_xor (a b : Byte) : nibbleOf (a ^^^ b) = nibbleOf a ^^^ nibbleOf b := by
  simp only [nibbleOf, BitVec.extractLsb'_xor]
  exact BitVec.xor_append.symm

/-- After a codeword the decoder adds the nibble it reads from the error pattern to the right one. -/
theorem decodeNibble_xor_of_valid {c : Codeword} (hc : valid c = true) (e : Byte) :
    decodeNibble (c ^^^ e) = nibbleOf c ^^^ decodeNibble e := by
  rw [decodeNibble_eq, decodeNibble_eq, locateError_xor_of_valid hc, correct_xor, nibbleOf_xor]

/-- One flip changes the number of flipped bits by one. -/
theorem flippedBits_xor_bitMask_cases (e : Byte) {k : Nat} (hk : k < 7) :
    flippedBits (e ^^^ bitMask k) + 1 = flippedBits e ∨ flippedBits e + 1 = flippedBits (e ^^^ bitMask k) := by
  cases he : e.getLsbD k with
  | true => exact .inl (flippedBits_xor_bitMask hk he)
  | false =>
    right
    have hset : (e ^^^ bitMask k).getLsbD k = true := by
      rw [BitVec.getLsbD_xor, he, getLsbD_bitMask (by omega), decide_eq_true rfl]
      rfl
    have hback := flippedBits_xor_bitMask hk hset
    rwa [BitVec.xor_assoc, BitVec.xor_self, BitVec.xor_zero] at hback

/-- The correction changes the number of flipped bits by one at most. -/
theorem flippedBits_correct_bounds (e : Byte) (p : Position) :
    flippedBits (correct e p) ≤ flippedBits e + 1 ∧ flippedBits e ≤ flippedBits (correct e p) + 1 := by
  rw [correct_eq]
  split_ifs with h7
  · omega
  · have hcases := flippedBits_xor_bitMask_cases e (position_toNat_lt_seven h7)
    omega

/-- A valid word has the nibble 0 exactly when none of its code bits is set. -/
theorem nibbleOf_eq_zero_iff_of_valid {c : Codeword} (hc : valid c = true) : nibbleOf c = 0 ↔ flippedBits c = 0 := by
  have hcodeword (v : Nibble) : v = 0 ↔ popcount (encodeNibble v) = 0 := by
    revert v
    decide
  rw [hcodeword, encodeNibble_nibbleOf hc, flippedBits]

/-- An error pattern decodes to 0 exactly when it has one flip at most: the corrected pattern is valid, so it has no flips or at
least three, and the correction changed one. -/
theorem decodeNibble_eq_zero_iff (e : Byte) : decodeNibble e = 0 ↔ flippedBits e ≤ 1 := by
  have hvalid := valid_correct_locateError e
  have hdistance := flippedBits_of_valid hvalid
  have hbounds := flippedBits_correct_bounds e (locateError e)
  rw [decodeNibble_eq, nibbleOf_eq_zero_iff_of_valid hvalid]
  omega

/-- The exact correctness condition of the decoder (R60). -/
theorem decodeNibble_xor_eq_iff {c : Codeword} (hc : valid c = true) (e : Byte) :
    decodeNibble (c ^^^ e) = nibbleOf c ↔ flippedBits e ≤ 1 := by
  rw [decodeNibble_xor_of_valid hc, ← decodeNibble_eq_zero_iff]
  constructor
  · intro h
    exact (BitVec.xor_right_inj (nibbleOf c)).1 (h.trans BitVec.xor_zero.symm)
  · intro h
    rw [h]
    exact BitVec.xor_zero

theorem decodeNibble_encodeNibble_xor_eq_iff (v : Nibble) (e : Byte) :
    decodeNibble (encodeNibble v ^^^ e) = v ↔ flippedBits e ≤ 1 := by
  simpa only [nibbleOf_encodeNibble] using decodeNibble_xor_eq_iff (valid_encodeNibble v) e

/-- The decoder answers a nibble exactly when that nibble's codeword is one flip away at most (R62). -/
theorem decodeNibble_eq_iff (a : Byte) (v : Nibble) :
    decodeNibble a = v ↔ flippedBits (a ^^^ encodeNibble v) ≤ 1 := by
  rw [← decodeNibble_encodeNibble_xor_eq_iff v, BitVec.xor_comm a, ← BitVec.xor_assoc, BitVec.xor_self, BitVec.zero_xor]

theorem encodeNibble_inj {v w : Nibble} : encodeNibble v = encodeNibble w ↔ v = w :=
  Function.LeftInverse.injective nibbleOf_encodeNibble |>.eq_iff

/-- Settles O13: the decoder's own intermediate words, and `correct_eq` for the flip of step 2. -/
theorem decnFollowsTheSixSteps : Obligations.DecnFollowsTheSixSteps := by
  intro a
  exact ⟨decode_encode (.decn a), locateError a, correct a (locateError a), computeParity (correct a (locateError a)), _, _,
    exec_syn a, correct_eq _ _, exec_par _, rfl, rfl, exec_decn a⟩

/-- Settles O14: the closed form `decodeNibble_eq`; a word of the table is some nibble's codeword, and `decodeNibble_eq_iff` says
which one is near. -/
theorem decnReturnsTheNearestCodewordsNibble : Obligations.DecnReturnsTheNearestCodewordsNibble := by
  intro a
  obtain ⟨n3, n2, n1, n0⟩ := nibbleOf_bits (correct a (locateError a))
  rw [← decodeNibble_eq] at n3 n2 n1 n0
  refine ⟨locateError a, correct a (locateError a), decodeNibble a, encodeNibble (decodeNibble a), exec_syn a, correct_eq _ _,
    valid_correct_locateError a, n3, n2, n1, n0, exec_decn a, fun s => ?_, exec_encn_zeroExtend _, fun d hd => ?_⟩
  · rw [exec_decn, decodeNibble_and_codeMask]
    rfl
  · obtain ⟨v, rfl⟩ := (mem_codewordTable_iff d).1 hd
    rw [← decodeNibble_eq_iff, encodeNibble_inj, eq_comm]

/-- Settles O16: `decodeNibble_encodeNibble_xor_eq_iff`. -/
theorem decnIsRightExactlyUpToOneFlip : Obligations.DecnIsRightExactlyUpToOneFlip := by
  intro v
  exact ⟨encodeNibble v, exec_encn_zeroExtend v, fun e =>
    ⟨decodeNibble (encodeNibble v ^^^ e), exec_decn _, decodeNibble_encodeNibble_xor_eq_iff v e⟩⟩

/-- Settles O15: no flip and a single flip are the patterns with one flipped bit at most. -/
theorem decnCorrectsEverySingleFlip : Obligations.DecnCorrectsEverySingleFlip := by
  intro v
  have hright {e : Byte} (he : flippedBits e ≤ 1) (s : State) :
      exec (.decn (encodeNibble v ^^^ e)) s = .next (s.appendResult (.nibble v)) := by
    rw [exec_decn, (decodeNibble_encodeNibble_xor_eq_iff v e).2 he]
  refine ⟨encodeNibble v, exec_encn_zeroExtend v, fun s => ?_, fun b hb => hright (flippedBits_bitMask b hb).le⟩
  have hnone := hright (e := 0) (by decide) s
  rwa [BitVec.ofNat_eq_ofNat, BitVec.xor_zero] at hnone

end Sys2Proof.Machine
end

section
/-! The byte codec (43_byte_codec.md R63 to R68): a byte is its two nibbles side by side, the encoder takes it apart and the
decoder joins it, and each lane is the nibble codec's. -/

namespace Sys2Proof.Machine

theorem highNibble_append_lowNibble (x : Byte) : highNibble x ++ lowNibble x = x :=
  (BitVec.extractLsb'_append_extractLsb'_eq_extractLsb' rfl).trans BitVec.extractLsb'_eq_self

@[simp] theorem highNibble_append (m n : Nibble) : highNibble (m ++ n) = m :=
  BitVec.extractLsb'_append_eq_left

@[simp] theorem lowNibble_append (m n : Nibble) : lowNibble (m ++ n) = n :=
  BitVec.extractLsb'_append_eq_right

/-- The shift and the OR of R66 only place the two nibbles side by side, because neither reaches the other's half. -/
theorem decodeByte_eq_append (h l : Codeword) : decodeByte h l = decodeNibble h ++ decodeNibble l := by
  rw [BitVec.append_def, BitVec.shiftLeftZeroExtend_eq, BitVec.setWidth'_eq]
  rfl

/-- `byte >> 4` is the high nibble widened to `ENCN`'s operand (R64). -/
theorem shiftRight_four_eq (x : Byte) : x >>> 4 = (highNibble x).zeroExtend 8 := by
  apply BitVec.eq_of_toNat_eq
  rw [BitVec.zeroExtend, BitVec.toNat_setWidth_of_le (by decide), highNibble, BitVec.extractLsb'_toNat,
    BitVec.toNat_ushiftRight, Nat.shiftRight_eq_div_pow]
  omega

/-- `byte & 0xF` is the low nibble widened to `ENCN`'s operand (R64). -/
theorem and_fifteen_eq (x : Byte) : x &&& 0xF = (lowNibble x).zeroExtend 8 := by
  apply BitVec.eq_of_toNat_eq
  rw [BitVec.zeroExtend, BitVec.toNat_setWidth_of_le (by decide), lowNibble, BitVec.extractLsb'_toNat,
    Nat.shiftRight_zero, BitVec.toNat_and]
  exact Nat.and_two_pow_sub_one_eq_mod x.toNat 4

/-- A codeword received as it was sent decodes to its nibble (R59). -/
theorem decodeNibble_encodeNibble (v : Nibble) : decodeNibble (encodeNibble v) = v := by
  rw [decodeNibble_eq_iff, BitVec.xor_self]
  decide

/-- A codeword is at most 127 (R55). -/
theorem encodeNibble_toNat_le (v : Nibble) : (encodeNibble v).toNat ≤ 127 :=
  toNat_le_of_bit_seven (producedCodeword_bit_seven (producedCodeword_encodeNibble v))

/-- Settles O20: the encoder's lanes are the nibble encoder on each half, the decoder's are the nibble decoder on each codeword,
and the decoder's halves stand side by side. -/
theorem byteLanesAreIndependent : Obligations.ByteLanesAreIndependent := by
  refine ⟨⟨encodeNibble, encodeNibble, exec_encb⟩, decodeNibble, decodeNibble, fun h l s => ?_⟩
  rw [exec_decb, decodeByte_eq_append]
  rfl

/-- Settles O21: each lane gives its nibble back, and the two nibbles side by side are the byte. -/
theorem byteRoundTrip : Obligations.ByteRoundTrip := by
  intro x
  have hback : decodeByte (encodeNibble (highNibble x)) (encodeNibble (lowNibble x)) = x := by
    rw [decodeByte_eq_append, decodeNibble_encodeNibble, decodeNibble_encodeNibble, highNibble_append_lowNibble]
  refine ⟨_, _, exec_encb x, fun s => ?_⟩
  rw [exec_decb, hback]
  rfl

/-- Settles O22: each half of the decoded byte is its own lane's nibble, which is right exactly up to one flip. -/
theorem decbCorrectsOneFlipPerLane : Obligations.DecbCorrectsOneFlipPerLane := by
  intro x
  refine ⟨_, _, exec_encb x, fun eHi eLo => ⟨_, exec_decb _ _, ?_, ?_⟩⟩
  · change highNibble (decodeByte _ _) = highNibble x ↔ _
    rw [decodeByte_eq_append, highNibble_append, decodeNibble_encodeNibble_xor_eq_iff]
  · change lowNibble (decodeByte _ _) = lowNibble x ↔ _
    rw [decodeByte_eq_append, lowNibble_append, decodeNibble_encodeNibble_xor_eq_iff]

/-- Settles O17: the operands `x >> 4` and `x & 0xF` are the byte's own nibbles, widened. -/
theorem encbEncodesBothHalves : Obligations.EncbEncodesBothHalves := by
  intro x
  refine ⟨decode_encode (.encb x), encodeNibble (highNibble x), encodeNibble (lowNibble x), ?_, ?_, exec_encb x⟩
  · rw [shiftRight_four_eq]
    exact exec_encn_zeroExtend _
  · rw [and_fifteen_eq]
    exact exec_encn_zeroExtend _

/-- Settles O18: both results are codewords of nibbles. -/
theorem encbGivesTwoValidCodewords : Obligations.EncbGivesTwoValidCodewords := by
  intro x
  exact ⟨_, _, exec_encb x, valid_encodeNibble _, encodeNibble_toNat_le _, valid_encodeNibble _, encodeNibble_toNat_le _⟩

/-- Settles O19: `decodeByte` is R66's shift and OR of what `DECN` answers. -/
theorem decbJoinsBothNibbles : Obligations.DecbJoinsBothNibbles := by
  intro h l
  exact ⟨decode_encode (.decb h l), decodeNibble h, decodeNibble l, exec_decn h, exec_decn l, exec_decb h l⟩

end Sys2Proof.Machine
end

section
/-! Completion and stops (60_exceptions.md R69 to R74, R80): what a word that does not complete leaves, the four things a step can
do, and what each of them keeps. -/

namespace Sys2Proof.Machine

/-- A word that does not complete is rejected by R39 or has R70's shape, and its entry names which (R70, R71, R73). -/
theorem stopEntry_cases {w : CommandWord} (h : completingWord w = false) :
    (illegalWord w = true ∧ stopEntry w = .illegalCommand w) ∨
      (preconditionWord w = true ∧ stopEntry w = .preconditionViolation (aField w) w) := by
  cases hillegal : illegalWord w with
  | true => exact .inl ⟨rfl, by rw [stopEntry, hillegal, if_pos rfl]⟩
  | false =>
    have hpre : preconditionWord w = true := by simpa [completingWord, hillegal] using h
    exact .inr ⟨hpre, by rw [stopEntry, hillegal, if_neg Bool.false_ne_true]⟩

theorem stopEntry_genuine {w : CommandWord} (h : completingWord w = false) : (stopEntry w).genuine = true := by
  obtain ⟨hillegal, he⟩ | ⟨hpre, he⟩ := stopEntry_cases h
  · rw [he]
    exact hillegal
  · rw [he]
    exact Bool.and_eq_true_iff.2 ⟨hpre, beq_self_eq_true _⟩

theorem runWord_of_not_completing {w : CommandWord} (h : completingWord w = false) (s : State) :
    runWord w s = stopWith (stopEntry w) s := by
  obtain ⟨hillegal, he⟩ | ⟨hpre, he⟩ := stopEntry_cases h
  · rw [he, runWord_of_illegal hillegal]
  · rw [he, runWord_of_precondition hpre]

/-- Both kinds of stop carry the state with the entry recorded (R74). -/
@[simp] theorem stateAfter_stopWith (e : FaultEntry) (s : State) :
    stateAfter (stopWith e s) = some (s.recordFault e) := by
  cases e <;> rfl

/-- The four things a step can do: stay stopped, be idle, complete the next word, or stop at it (R73, R85, R88). -/
theorem step_cases (s : State) :
    (s.faultRecord ≠ [] ∧ step s = .fault (.runStopped s)) ∨
      (s.faultRecord = [] ∧ s.pending = [] ∧ step s = .next s) ∨
      (∃ w rest r, s.faultRecord = [] ∧ s.pending = w :: rest ∧ completingWord w = true ∧
        step s = .next (({ s with pending := rest } : State).appendResult r)) ∨
      ∃ w rest, s.faultRecord = [] ∧ s.pending = w :: rest ∧ completingWord w = false ∧
        step s = stopWith (stopEntry w) { s with pending := rest } := by
  by_cases hf : s.faultRecord = []
  · cases hp : s.pending with
    | nil => exact .inr (.inl ⟨hf, rfl, step_of_no_command s hf hp⟩)
    | cons w rest =>
      have hstep := step_of_pending s w rest hf hp
      cases hw : completingWord w with
      | true =>
        obtain ⟨r, hr⟩ := runWord_of_completing hw
        exact .inr (.inr (.inl ⟨w, rest, r, hf, rfl, hw, hstep.trans (hr _)⟩))
      | false => exact .inr (.inr (.inr ⟨w, rest, hf, rfl, hw, hstep.trans (runWord_of_not_completing hw _)⟩))
  · exact .inl ⟨hf, step_of_stopped s hf⟩

/-- A step that does not go on leaves a stopped state as it was, or takes the next word off and records its entry (R74). -/
theorem step_stop_cases {s t : State} (hstop : ∀ u, step s ≠ .next u) (ht : stateAfter (step s) = some t) :
    (s.faultRecord ≠ [] ∧ t = s) ∨
      ∃ w rest, s.faultRecord = [] ∧ s.pending = w :: rest ∧ completingWord w = false ∧
        t = ({ s with pending := rest } : State).recordFault (stopEntry w) := by
  obtain ⟨hf, hstep⟩ | ⟨-, -, hstep⟩ | ⟨_, _, _, -, -, -, hstep⟩ | ⟨w, rest, hf, hp, hw, hstep⟩ := step_cases s
  · rw [hstep] at ht
    exact .inl ⟨hf, (Option.some.inj ht).symm⟩
  · exact absurd hstep (hstop _)
  · exact absurd hstep (hstop _)
  · rw [hstep, stateAfter_stopWith] at ht
    exact .inr ⟨w, rest, hf, hp, hw, (Option.some.inj ht).symm⟩

/-- The first recorded outcome keeps the invariant if it is a genuine one. -/
theorem State.Inv.recordFault {s : State} {e : FaultEntry} (hs : s.Inv) (hf : s.faultRecord = [])
    (he : e.genuine = true) : (s.recordFault e).Inv := by
  obtain ⟨hresults, -, -⟩ := hs
  have hrecord : (s.recordFault e).faultRecord = [e] := by rw [recordFault_faultRecord, hf, List.nil_append]
  refine ⟨hresults, ?_, ?_⟩
  · rw [hrecord, List.length_singleton]
  · rw [hrecord]
    exact List.forall_mem_singleton.2 he

/-- Settles O42: a stop at a word records one genuine entry in an empty record; a stopped state stays as it was. -/
theorem stopsKeepTheInvariant : Obligations.StopsKeepTheInvariant := by
  intro s t hs hstop ht
  obtain ⟨-, rfl⟩ | ⟨w, rest, hf, -, hw, rfl⟩ := step_stop_cases hstop ht
  · exact hs
  · exact ((s.inv_setPending_iff rest).2 hs).recordFault hf (stopEntry_genuine hw)

/-- Settles O12: above 15 `ENCN` stops with its own word, and of the two ways `exec` can answer only that one is a fault. -/
theorem onlyEncnAboveFifteenFaults : Obligations.OnlyEncnAboveFifteenFaults := by
  refine ⟨fun a s ha => exec_encn_of_gt a s ha, fun a w => rfl, fun i s r hfault => ?_⟩
  obtain ⟨_, hcompletes⟩ | ⟨a, hi, ha, -⟩ := exec_cases i
  · rw [hcompletes] at hfault
    cases hfault
  · exact ⟨a, hi, ha⟩

/-- Settles O24: each command's own equation gives the result, which has its unit's ports; `ENCN` needs its operand in range. -/
theorem everyWellFormedCommandCompletes : Obligations.EveryWellFormedCommandCompletes := by
  intro i hwf
  cases i with
  | par a => exact ⟨_, rfl, exec_par a⟩
  | syn a => exact ⟨_, rfl, exec_syn a⟩
  | encn a => exact ⟨_, rfl, fun s => exec_encn_of_le a s (of_decide_eq_true hwf)⟩
  | decn a => exact ⟨_, rfl, exec_decn a⟩
  | encb a => exact ⟨_, rfl, exec_encb a⟩
  | decb a b => exact ⟨_, rfl, exec_decb a b⟩

theorem step_next_faultRecord {s t : State} (h : step s = .next t) : t.faultRecord = s.faultRecord := by
  obtain ⟨-, -, rfl⟩ | ⟨_, _, _, _, -, -, -, -, rfl⟩ := step_next_cases s t h
  · rfl
  · rfl

/-- No step clears the fault record or changes an entry of it (R74). -/
theorem step_extends_faultRecord {s t : State} (ht : stateAfter (step s) = some t) :
    ∃ es, t.faultRecord = s.faultRecord ++ es := by
  by_cases hnext : ∃ u, step s = .next u
  · obtain ⟨u, hu⟩ := hnext
    rw [hu] at ht
    cases ht
    exact ⟨[], by rw [step_next_faultRecord hu, List.append_nil]⟩
  · obtain ⟨-, rfl⟩ | ⟨w, _, -, -, -, rfl⟩ := step_stop_cases (not_exists.1 hnext) ht
    · exact ⟨[], (List.append_nil _).symm⟩
    · exact ⟨[stopEntry w], rfl⟩

/-- Nothing is issued any more once an outcome is recorded (R74, R88). -/
theorem step_ne_next_of_stopped {s : State} (h : s.faultRecord ≠ []) (u : State) : step s ≠ .next u := by
  rw [step_of_stopped s h]
  exact nofun

/-- Settles O33: the record only grows, a stop writes no result and leaves an entry in it, and with an entry no step goes on. -/
theorem stopsAreRecordedAndFinal : Obligations.StopsAreRecordedAndFinal := by
  intro s t ht
  refine ⟨step_extends_faultRecord ht, fun hstop => ?_⟩
  have hleft : t.results = s.results ∧ t.faultRecord ≠ [] := by
    obtain ⟨hf, rfl⟩ | ⟨_, _, -, -, -, rfl⟩ := step_stop_cases hstop ht
    · exact ⟨rfl, hf⟩
    · exact ⟨rfl, List.concat_ne_nil _ _⟩
  obtain ⟨hresults, hf⟩ := hleft
  exact ⟨hresults, hf, step_ne_next_of_stopped hf⟩

/-- Settles O36: of the four things a step can do, only the idle step and the completion of the next word go on. -/
theorem stepConsumesOneCommandInOrder : Obligations.StepConsumesOneCommandInOrder := by
  intro s t h
  refine ⟨step_next_faultRecord h, ?_⟩
  obtain ⟨-, hstep⟩ | ⟨-, hp, hstep⟩ | ⟨w, _, r, -, hp, hw, hstep⟩ | ⟨_, _, -, -, -, hstep⟩ := step_cases s <;>
    rw [hstep] at h
  · cases h
  · cases h
    exact .inl ⟨hp, rfl⟩
  · cases h
    exact .inr ⟨w, r, hp, rfl, hw⟩
  · exact absurd h (stopWith_ne_next _ _ _)

/-- Settles O25: `SYN`, `DECN` and `DECB` complete on every operand, a received word with any flips included. -/
theorem receivedWordsNeverFault : Obligations.ReceivedWordsNeverFault := by
  intro c e d f s
  exact ⟨_, _, _, exec_syn _ s, exec_decn _ s, exec_decb _ _ s⟩

/-- Settles O34: `step_of_stopped`. -/
theorem stoppedRunFaultsByName : Obligations.StoppedRunFaultsByName :=
  step_of_stopped

end Sys2Proof.Machine
end

section
/-! Reset, the step on the word issued next, and whole runs (70_reset_and_hazards.md R82 to R88). -/

namespace Sys2Proof.Machine

/-- A run that is not stopped issues the next word and runs the command it decodes to (R85). -/
theorem step_of_decode {s : State} {w : CommandWord} {rest : List CommandWord} {i : Instr} (hd : decode w = .ok i)
    (hf : s.faultRecord = []) (hp : s.pending = w :: rest) : step s = exec i { s with pending := rest } :=
  (step_of_pending s w rest hf hp).trans (runWord_of_decode hd _)

/-- A table word as wide as a command word is that word (R36). -/
@[simp] theorem tableWord_toNat (w : CommandWord) : tableWord 24 w.toNat = w := by
  rw [tableWord, Nat.mod_eq_of_lt w.isLt, BitVec.ofNat_toNat, BitVec.setWidth_eq]

/-- Settles O32: `withFetchWord` puts the word itself at the head of the list, so both steps issue it. -/
theorem stepRunsTheDecodedCommand : Obligations.StepRunsTheDecodedCommand := by
  intro w i s rest hd
  refine ⟨step_of_decode hd rfl rfl, step_of_decode hd rfl ?_⟩
  rw [State.withFetchWord, State.present_pending, tableWord_toNat]

/-- Settles O35: `step_of_no_command`. -/
theorem noPendingCommandChangesNothing : Obligations.NoPendingCommandChangesNothing :=
  fun s hp hf => step_of_no_command s hf hp

/-- Settles O37: `reset_results` and `reset_faultRecord`. -/
theorem resetListsAreEmpty : Obligations.ResetListsAreEmpty :=
  ⟨State.reset_results, State.reset_faultRecord⟩

/-- Settles O40: both lists the invariant speaks of are empty at reset. -/
theorem resetSatisfiesTheInvariant : Obligations.ResetSatisfiesTheInvariant :=
  ⟨List.forall_mem_nil _, Nat.zero_le 1, List.forall_mem_nil _⟩

/-- A command that completes with `r` is consumed from the head of the list by one step, which appends `r` (R85). -/
theorem step_encode_of_exec {i : Instr} {r : Result} (hexec : ∀ s, exec i s = .next (s.appendResult r))
    (rest : List CommandWord) (rs : List Result) :
    step { pending := encode i :: rest, results := rs, faultRecord := [] } =
      .next { pending := rest, results := rs ++ [r], faultRecord := [] } :=
  (step_of_decode (decode_encode i) rfl rfl).trans (hexec _)

/-- Settles O38: the loaded list runs its first command with no results before it. -/
theorem firstCommandRunsFromReset : Obligations.FirstCommandRunsFromReset := by
  intro i rest hwf
  obtain ⟨r, hunit, hexec⟩ := everyWellFormedCommandCompletes i hwf
  exact ⟨r, step_encode_of_exec hexec rest [], hunit⟩

/-- The results of the commands in range, as one function of the command for all states (R25, R69). -/
theorem exists_result_function :
    ∃ f : Instr → Result, ∀ c, c.wellFormed = true → ∀ s, exec c s = .next (s.appendResult (f c)) := by
  have : Nonempty Result := ⟨.byte 0⟩
  choose! f _ hexec using everyWellFormedCommandCompletes
  exact ⟨f, hexec⟩

theorem run_succ_of_next {M : Host.Core} {s t : M.State} (h : M.step s = .next t) (n : Nat) :
    M.run (n + 1) s = M.run n t := by
  rw [Host.Core.run, h]

/-- A run ends at the first step that does not go on, however many steps are left (R74, R88). -/
theorem run_succ_of_stop {M : Host.Core} {s : M.State} (h : ∀ u, M.step s ≠ .next u) (n : Nat) :
    M.run (n + 1) s = M.step s := by
  rw [Host.Core.run]
  cases hstep : M.step s with
  | next u => exact absurd hstep (h u)
  | fault r => rfl
  | refused r => rfl

/-- As many steps as there are completing commands at the head of the list append their results in order, and the rest of the
run goes on from there (R80, R88). -/
theorem run_completing_commands {f : Instr → Result} {cs : List Instr}
    (hexec : ∀ c ∈ cs, ∀ s, exec c s = .next (s.appendResult (f c)))
    (rest : List CommandWord) (rs : List Result) (n : Nat) :
    Host.Core.run core (cs.length + n) (⟨cs.map encode ++ rest, rs, []⟩ : State) =
      Host.Core.run core n (⟨rest, rs ++ cs.map f, []⟩ : State) := by
  induction cs generalizing rs with
  | nil => rw [List.length_nil, Nat.zero_add, List.map_nil, List.map_nil, List.append_nil, List.nil_append]
  | cons c cs ih =>
    obtain ⟨hc, hcs⟩ := List.forall_mem_cons.1 hexec
    have hstep : core.step (⟨encode c :: (cs.map encode ++ rest), rs, []⟩ : State) =
        .next (⟨cs.map encode ++ rest, rs ++ [f c], []⟩ : State) := step_encode_of_exec hc _ _
    calc Host.Core.run core ((c :: cs).length + n) (⟨encode c :: (cs.map encode ++ rest), rs, []⟩ : State)
      _ = Host.Core.run core (cs.length + n) (⟨cs.map encode ++ rest, rs ++ [f c], []⟩ : State) := by
        rw [List.length_cons, Nat.add_right_comm]
        exact run_succ_of_next hstep _
      _ = Host.Core.run core n (⟨rest, rs ++ [f c] ++ cs.map f, []⟩ : State) := ih hcs _
      _ = Host.Core.run core n (⟨rest, rs ++ (c :: cs).map f, []⟩ : State) := by
        rw [List.append_assoc, List.singleton_append, List.map_cons]

/-- A run whose next word does not complete stops at once, with that word's entry as its record (R74, R88). -/
theorem runStops_of_not_completing {w : CommandWord} (hw : completingWord w = false) (rest : List CommandWord)
    (rs : List Result) (n : Nat) :
    RunStops { pending := w :: rest, results := rs, faultRecord := [] } (n + 1) [] (stopEntry w) := by
  have hstep : core.step (⟨w :: rest, rs, []⟩ : State) = stopWith (stopEntry w) ⟨rest, rs, []⟩ :=
    (step_of_pending ⟨w :: rest, rs, []⟩ w rest rfl rfl).trans (runWord_of_not_completing hw _)
  have hrun := (run_succ_of_stop (fun u => hstep ▸ stopWith_ne_next _ _ u) n).trans hstep
  rw [RunStops, hrun]
  exact ⟨_, stateAfter_stopWith _ _, stopWith_ne_next _ _, (List.append_nil rs).symm, rfl⟩

/-- Settles O39: the commands in range run to their results, and the word behind them, if it does not complete, stops what is
left of the run. -/
theorem runsSucceedOrStopAtTheFirstFault : Obligations.RunsSucceedOrStopAtTheFirstFault := by
  obtain ⟨f, hf⟩ := exists_result_function
  refine ⟨f, fun cs s rest hwf => ?_⟩
  have hrun := run_completing_commands (fun c hc => hf c (hwf c hc))
  refine ⟨⟨_, hrun rest s.results 0, rfl, List.length_map f, rfl⟩, fun w n hw hn => ?_⟩
  obtain ⟨k, rfl⟩ := Nat.exists_eq_add_of_lt hn
  obtain ⟨t, hafter, hstop, hresults, hrecord⟩ := runStops_of_not_completing hw rest (s.results ++ cs.map f) k
  rw [← hrun (w :: rest) s.results (k + 1)] at hafter hstop
  exact ⟨t, hafter, hstop, hresults.trans (List.append_nil _), hrecord⟩

end Sys2Proof.Machine
end
